-- ==== Sys2Proof/Word.lean ====
section
/-! DEFINITION. The words of the block: bytes, 16-bit patterns and byte strings (00_scope.md R5, R6, R7). -/

namespace Sys2Proof

/-- A byte; bit 0 is the least significant (R5). -/
abbrev Byte := BitVec 8

/-- A 16-bit pattern, read as u16 (`toNat`) or s16 (`toInt`) as a rule says (R7, R53). -/
abbrev Half := BitVec 16

/-- A byte string: equal when of equal length with equal bytes at every offset (R6). -/
abbrev ByteString := List Byte

end Sys2Proof
end

