-- ==== Sys2Proof/Config.lean ====
section
/-! DEFINITION. What an implementation fixes (the parameters of 00_scope.md R4) and the free values. -/

namespace Sys2Proof

/-- The implementation parameters of R4, fixed at build time. `P_SUMMARY_MAX` is computed from
them (`Params.summaryMax`). -/
structure Params where
  /-- `P_ENTRIES`: slots of the register file. -/
  entries : Nat
  /-- `P_KEY_MAX`: longest device identifier, in bytes. -/
  keyMax : Nat
  /-- `P_MAX_PAYLOAD`: longest payload, in bytes. -/
  maxPayload : Nat
  /-- `P_QUEUE_DEPTH`: depth of the discovery FIFO. -/
  queueDepth : Nat
  /-- `P_FLUSH_INTERVAL`, in minutes: the external tick source's period; no rule of the block reads it (R38). -/
  flushMinutes : Nat
  /-- `P_TERM_UNGATED` (conflict C1). -/
  termUngated : Bool
  /-- `P_LIGHT_LEN_LEGACY` (conflict C2). -/
  lightLenLegacy : Bool
deriving DecidableEq, Repr

/-- `P_SUMMARY_MAX = 9 + ceil(20 * (P_MAX_PAYLOAD - 7) / 3)` (R4). -/
def Params.summaryMax (p : Params) : Nat := 9 + (20 * (p.maxPayload - 7) + 2) / 3

/-- The ranges R4 gives the open parameters; the FIFO has room for at least one entry. -/
abbrev Params.wf (p : Params) : Prop :=
  1 ≤ p.entries ∧ 1 ≤ p.keyMax ∧ 7 ≤ p.maxPayload ∧ 1 ≤ p.queueDepth

/-- The build that `State.reset` shows. DESIGN CHOICE (log entry 1) for the three OPEN parameters:
the values 95_test_vectors.md uses; the other four are R4's own values. -/
def Config.params : Params :=
  { entries := 4, keyMax := 8, maxPayload := 32, queueDepth := 16, flushMinutes := 5,
    termUngated := false, lightLenLegacy := false }

/-- Contents of the transient registers that the latch of a DISCOVER does not write (R20, R41: no
value; each is written before it is read). -/
structure Unwritten where
  batt : Byte
  tempV : Bool
  tempRaw : Half
  lightV : Bool
  lightIr : Bool
  lightRes : BitVec 2
  lightRng : BitVec 2
  lightVal : Half
  summary : ByteString
  ctrl : Byte
  desc : Byte
deriving DecidableEq, Repr, Inhabited

/-- FREE VALUE (log entry 2): what the transient registers hold before a rule has written them. -/
opaque Config.unwritten : Nat → Unwritten

/-- FREE VALUE (log entry 3): which of several enabled events the controller takes when no turn says
so (R180, R208). -/
opaque Config.freeSelect : Nat → Nat

end Sys2Proof
end

