-- ==== Sys2Proof/Syntax.lean ====
section
/-! DEFINITION. The instructions: one constructor per row of spec/opcode_table.json, and the record
notation of 30_encoding.md R83. -/

namespace Sys2Proof

/-- One constructor per row of the opcode table. A constructor carries the fields of the byte that
selects the row (control byte, descriptor byte); the operand bytes that follow stay in the payload
buffer and are read by the meaning, with the bound checks of R51 and R55 (log entry 12). -/
inductive Instr where
  /-- HDR (R100): the header validator, selected by the magic prefix. -/
  | hdr
  /-- NOP (R113): `A0TTTTTT`. -/
  | nop (alert : Bool) (type : BitVec 6)
  /-- MOTION (R115): `A1000001`. -/
  | motion (alert : Bool)
  /-- LIGHT (R116): `A1000010`. -/
  | light (alert : Bool)
  /-- LIGHT8 (R116, R117): descriptor `I-RRGG01`; `spare` is the ignored bit 6. -/
  | light8 (ir spare : Bool) (res rng : BitVec 2)
  /-- LIGHT16 (R116, R117): descriptor `I-RRGG10`. -/
  | light16 (ir spare : Bool) (res rng : BitVec 2)
  /-- LIGHT.BADLEN0 (R116, R76): descriptor `I-RRGG00`. -/
  | lightBadLen0 (ir spare : Bool) (res rng : BitVec 2)
  /-- LIGHT.BADLEN3 (R116, R76): descriptor `I-RRGG11`. -/
  | lightBadLen3 (ir spare : Bool) (res rng : BitVec 2)
  /-- TEMP (R118): `A1000011`. -/
  | temp (alert : Bool)
  /-- PAIR (R119): `A1101111`. -/
  | pair (alert : Bool)
  /-- ENC (R120): `A1111111`. -/
  | enc (alert : Bool)
  /-- UNKNOWN (R121): `A1TTTTTT` with T none of the five known types. -/
  | unknown (alert : Bool) (type : BitVec 6)
  /-- DISCOVER (R182): event id 0. -/
  | discover
  /-- TICK (R187): event id 1. -/
  | tick
  /-- SHUTDOWN (R189): event id 2. -/
  | shutdown
  /-- LOOKUP (R160): internal register-file operation, no encoding. -/
  | lookup (key : ByteString)
  /-- APPLY (R161-R164): internal register-file operation, no encoding. -/
  | apply (id summary : ByteString)
  /-- DRAIN (R166): internal register-file operation, no encoding. -/
  | drain
deriving DecidableEq, Repr

/-- The encoding spaces: which stage of the block reads the bytes. -/
inductive Space where
  | header | record | descriptor | event
deriving DecidableEq, Repr

/-- The record mnemonics of R83, without their alert byte. -/
inductive RecBody where
  | nop (type : BitVec 6)
  | motion (x y : Byte)
  | light8 (ir : Bool) (res rng : BitVec 2) (v : Byte)
  | light16 (ir : Bool) (res rng : BitVec 2) (v : Half)
  | temp (v : Half)
  | pair (x : Byte)
  | enc
deriving DecidableEq, Repr

/-- A record as R83 writes it: the mnemonic and, for the `.A x` forms, its alert byte. -/
structure Rec where
  alert : Option Byte
  body : RecBody
deriving DecidableEq, Repr

end Sys2Proof
end

