-- ==== Sys2Proof/WellFormed.lean ====
section
/-! DEFINITION. Well-formed instructions: what the fields of a row may hold. -/

namespace Sys2Proof

/-- The five data-types that have a record handler (R74, R114). -/
def knownTypes : List (BitVec 6) := [0x01, 0x02, 0x03, 0x2f, 0x3f]

/-- UNKNOWN is the row of the other 59 types (R80, R121); LOOKUP and APPLY take operands that fit the
slot storage (R160, R183, R146). Every other row admits every value of its fields. -/
def Instr.wf (p : Params) : Instr → Bool
  | .hdr => true
  | .nop _ _ => true
  | .motion _ => true
  | .light _ => true
  | .light8 _ _ _ _ => true
  | .light16 _ _ _ _ => true
  | .lightBadLen0 _ _ _ _ => true
  | .lightBadLen3 _ _ _ _ => true
  | .temp _ => true
  | .pair _ => true
  | .enc _ => true
  | .unknown _ t => !knownTypes.contains t
  | .discover => true
  | .tick => true
  | .shutdown => true
  | .lookup k => decide (k.length ≤ p.keyMax)
  | .apply id sum => decide (id.length ≤ p.keyMax) && decide (sum.length ≤ p.summaryMax)
  | .drain => true

end Sys2Proof
end

