-- ==== Sys2Proof/Decode.lean ====
section
/-! DEFINITION. The bit fields, the decoder and the encoder (30_encoding.md R70-R84). -/

namespace Sys2Proof

/-! ### Bit fields -/

/-- `dataType(b) = b[5:0]` (R111). -/
def dataType (b : Byte) : BitVec 6 := b.extractLsb' 0 6

/-- `hasData(b) = b[6]` (R111). -/
def hasData (b : Byte) : Bool := b.getLsbD 6

/-- `hasAlert(b) = b[7]` (R111). -/
def hasAlert (b : Byte) : Bool := b.getLsbD 7

/-- `isIR(b) = b[7]` (R117). -/
def isIR (b : Byte) : Bool := b.getLsbD 7

/-- Descriptor bit 6, which no rule reads (R81 (c), R117). -/
def spareBit (b : Byte) : Bool := b.getLsbD 6

/-- `resolution(b) = b[5:4]` (R117). -/
def resolution (b : Byte) : BitVec 2 := b.extractLsb' 4 2

/-- `range(b) = b[3:2]` (R117). -/
def rangeCode (b : Byte) : BitVec 2 := b.extractLsb' 2 2

/-- `lenCode(b) = b[1:0]` (R117). -/
def lenCode (b : Byte) : BitVec 2 := b.extractLsb' 0 2

/-- The control byte `ADTTTTTT` (R72). -/
def ctrlByte (alert data : Bool) (type : BitVec 6) : Byte :=
  BitVec.ofBool alert ++ (BitVec.ofBool data ++ type)

/-- The light descriptor byte `I-RRGGLL` (R75). -/
def descByte (ir spare : Bool) (res rng len : BitVec 2) : Byte :=
  BitVec.ofBool ir ++ (BitVec.ofBool spare ++ (res ++ (rng ++ len)))

/-- The magic prefix `85 00 02 00 3c` (R71, R100). -/
def magic : ByteString := [0x85, 0x00, 0x02, 0x00, 0x3c]

/-! ### Decoder -/

/-- Why bytes are no instruction of a space. -/
inductive DecodeReject where
  /-- No byte to decode. -/
  | empty
  /-- Header space: fewer than 7 bytes (R101). -/
  | short
  /-- Header space: the magic prefix differs (R102). -/
  | badMagic
  /-- Event space: an id other than 0, 1, 2 (R82: 3 is reserved and never generated). -/
  | reservedEvent
deriving DecidableEq, Repr

/-- The control byte decoded: total on all 256 values (R79, R111). -/
def decodeCtrl (b : Byte) : Instr :=
  let a := hasAlert b
  let t := dataType b
  if hasData b then
    if t = 0x01 then .motion a
    else if t = 0x02 then .light a
    else if t = 0x03 then .temp a
    else if t = 0x2f then .pair a
    else if t = 0x3f then .enc a
    else .unknown a t
  else .nop a t

/-- The light descriptor decoded by its length code: total on all 256 values (R75, R76, R117). -/
def decodeDesc (b : Byte) : Instr :=
  if lenCode b = 1 then .light8 (isIR b) (spareBit b) (resolution b) (rangeCode b)
  else if lenCode b = 2 then .light16 (isIR b) (spareBit b) (resolution b) (rangeCode b)
  else if lenCode b = 0 then .lightBadLen0 (isIR b) (spareBit b) (resolution b) (rangeCode b)
  else .lightBadLen3 (isIR b) (spareBit b) (resolution b) (rangeCode b)

/-- The 2-bit event id decoded (R82). -/
def decodeEvent (id : BitVec 2) : Except DecodeReject Instr :=
  if id = 0 then .ok .discover
  else if id = 1 then .ok .tick
  else if id = 2 then .ok .shutdown
  else .error .reservedEvent

/-- Decode the instruction at the start of `bytes` in an encoding space; on success the rest of the
bytes comes back, the row's operand bytes first. An event id stands alone in a byte. -/
def decode (sp : Space) (bytes : ByteString) : Except DecodeReject (Instr × ByteString) :=
  match sp with
  | .header =>
    if bytes.length < 7 then .error .short
    else if bytes.take 5 = magic then .ok (.hdr, bytes.drop 5)
    else .error .badMagic
  | .record =>
    match bytes with
    | [] => .error .empty
    | b :: rest => .ok (decodeCtrl b, rest)
  | .descriptor =>
    match bytes with
    | [] => .error .empty
    | b :: rest => .ok (decodeDesc b, rest)
  | .event =>
    match bytes with
    | [] => .error .empty
    | b :: rest =>
      if b.toNat < 4 then
        match decodeEvent (b.truncate 2) with
        | .ok i => .ok (i, rest)
        | .error e => .error e
      else .error .reservedEvent

/-! ### Encoder -/

/-- The space an instruction is encoded in; LOOKUP, APPLY and DRAIN have no encoding. -/
def Instr.space : Instr → Option Space
  | .hdr => some .header
  | .nop _ _ => some .record
  | .motion _ => some .record
  | .light _ => some .record
  | .light8 _ _ _ _ => some .descriptor
  | .light16 _ _ _ _ => some .descriptor
  | .lightBadLen0 _ _ _ _ => some .descriptor
  | .lightBadLen3 _ _ _ _ => some .descriptor
  | .temp _ => some .record
  | .pair _ => some .record
  | .enc _ => some .record
  | .unknown _ _ => some .record
  | .discover => some .event
  | .tick => some .event
  | .shutdown => some .event
  | .lookup _ => none
  | .apply _ _ => none
  | .drain => none

/-- The selecting bytes of an instruction, from R71, R72, R75 and R82. -/
def encode : Instr → ByteString
  | .hdr => magic
  | .nop a t => [ctrlByte a false t]
  | .motion a => [ctrlByte a true 0x01]
  | .light a => [ctrlByte a true 0x02]
  | .light8 i s r g => [descByte i s r g 1]
  | .light16 i s r g => [descByte i s r g 2]
  | .lightBadLen0 i s r g => [descByte i s r g 0]
  | .lightBadLen3 i s r g => [descByte i s r g 3]
  | .temp a => [ctrlByte a true 0x03]
  | .pair a => [ctrlByte a true 0x2f]
  | .enc a => [ctrlByte a true 0x3f]
  | .unknown a t => [ctrlByte a true t]
  | .discover => [0x00]
  | .tick => [0x01]
  | .shutdown => [0x02]
  | .lookup _ => []
  | .apply _ _ => []
  | .drain => []

/-! ### Record length (R78) -/

/-- What `reclen` answers: the bytes a record occupies, or a verdict. -/
inductive RecLen where
  | bytes (n : Nat)
  | terminal
  | illegalLight (g : BitVec 2)
  | illegalType (t : BitVec 6)
  /-- A byte the layout needs is not there. -/
  | missing
deriving DecidableEq, Repr

/-- The layout description of R78, over the bytes that start at the record. -/
def recLen (p : Params) (bytes : ByteString) : RecLen :=
  match bytes with
  | [] => .missing
  | c :: rest =>
    let base := 1 + (hasAlert c).toNat
    let t := dataType c
    if !hasData c && !(p.termUngated && t == 0x3f) then .bytes base
    else if t = 0x01 then .bytes (base + 2)
    else if t = 0x02 then
      match (c :: rest)[base]? with
      | none => .missing
      | some g =>
        if lenCode g = 2 then .bytes (base + 3)
        else if lenCode g = 1 ∨ p.lightLenLegacy = true then .bytes (base + 2)
        else .illegalLight (lenCode g)
    else if t = 0x03 then .bytes (base + 2)
    else if t = 0x2f then .bytes (base + 1)
    else if t = 0x3f then .terminal
    else .illegalType t

/-! ### Notation (R83) -/

/-- The two bytes of a 16-bit value, low byte first (R52, R83). -/
def leHalf (v : Half) : ByteString := [v.truncate 8, (v >>> 8).truncate 8]

/-- Has-data flag and data-type of a mnemonic's control byte (R83). -/
def RecBody.head : RecBody → Bool × BitVec 6
  | .nop t => (false, t)
  | .motion _ _ => (true, 0x01)
  | .light8 _ _ _ _ => (true, 0x02)
  | .light16 _ _ _ _ => (true, 0x02)
  | .temp _ => (true, 0x03)
  | .pair _ => (true, 0x2f)
  | .enc => (true, 0x3f)

/-- Type-specific payload of a mnemonic (R83). -/
def RecBody.payload : RecBody → ByteString
  | .nop _ => []
  | .motion x y => [x, y]
  | .light8 i r g v => [descByte i false r g 1, v]
  | .light16 i r g v => descByte i false r g 2 :: leHalf v
  | .temp v => leHalf v
  | .pair x => [x]
  | .enc => []

/-- The bytes a record mnemonic spells (R73, R83). -/
def Rec.bytes (r : Rec) : ByteString :=
  ctrlByte r.alert.isSome r.body.head.1 r.body.head.2 :: (r.alert.toList ++ r.body.payload)

/-- The 7-byte header with battery `b` and reserved byte `r`; `HDR(b)` of R83 has `r = 0`. -/
def headerBytes (b r : Byte) : ByteString := magic ++ [b, r]

/-! ### The opcode table's bit numbering -/

/-- `n` bytes of `w`, the least significant first. -/
def wordBytes : Nat → Nat → ByteString
  | 0, _ => []
  | n + 1, w => BitVec.ofNat 8 w :: wordBytes n (w / 256)

/-- The instruction the decoder reads from a table word. The spaces overlap as bare words, so the
width picks the space (log entry 10): 2 bits or fewer an event id, 56 bits or more a header,
anything else a record's control byte. -/
def decodeTableWord (nbits w : Nat) : Option Instr :=
  if nbits ≤ 2 then (decode .event (wordBytes 1 w)).toOption.map Prod.fst
  else if 56 ≤ nbits then (decode .header (wordBytes 7 w)).toOption.map Prod.fst
  else (decode .record (wordBytes 5 w)).toOption.map Prod.fst

end Sys2Proof
end

