-- ==== Sys2Proof/Machine/State.lean ====
section
/-! DEFINITION. The state of the block as plain data (10_state.md), its outputs, causes and codes, the
faults and refusals, and reset. -/

namespace Sys2Proof.Machine

/-! ### The payload buffer -/

/-- A byte-addressed memory: (address, byte) cells, addresses strictly rising. An unlisted address
does not exist (R50, R51). -/
abbrev Memory := List Host.Cell

/-- The canonical form: addresses strictly rising. No listed entry can equal what an unlisted
address reads as, since an unlisted address reads as nothing. -/
def Memory.wf : Memory → Bool
  | [] => true
  | [_] => true
  | (a, _) :: (b, y) :: rest => decide (a < b) && Memory.wf ((b, y) :: rest)

/-! ### Inputs and outputs -/

/-- A discovery triple `(id, payload, rssi)` (R30). -/
structure Discovery where
  id : ByteString
  payload : ByteString
  rssi : Int
deriving DecidableEq, Repr

/-- The three event kinds (R82). -/
inductive Event where
  | discover | tick | shutdown
deriving DecidableEq, Repr

/-- Status codes (R201). -/
inductive StatusCode where
  | okNew | okChanged | okUnchanged | tableFull
  | notOursShort | notOursMagic
  | failTruncated | failUnknownType | failLightLen
  | refusedKey | refusedPayload
  | drainDone | halted
deriving DecidableEq, Repr

/-- The two gauges (R185). -/
inductive Gauge where
  | battery | temperature
deriving DecidableEq, Repr

/-- The two kinds of log record (R191). -/
inductive LogKind where
  | new | changed
deriving DecidableEq, Repr

/-- One record on an output port (R185, R191, R192). -/
inductive Output where
  /-- `GAUGE(id, gauge, value)`; a temperature is in sixteenths of a degree (R148). -/
  | gauge (id : ByteString) (g : Gauge) (value : Int)
  /-- `LOG(kind, id, summary)`. -/
  | log (kind : LogKind) (id summary : ByteString)
  /-- `STATUS(event id, code, info)`. -/
  | status (event : BitVec 2) (code : StatusCode) (info : Nat)
deriving DecidableEq, Repr

/-- Who acts next between events: the producer makes its next offer, the environment asserts an
input, or the controller is given event `e` to take (R12, R58, R180). -/
inductive Turn where
  | offer
  | assertTick
  | assertShutdown
  | assertReset
  | take (e : Event)
deriving DecidableEq, Repr

/-! ### The register file -/

/-- A slot of `RF` with the fields of R22. -/
structure Slot where
  valid : Bool
  klen : Nat
  key : ByteString
  slen : Nat
  sum : ByteString
  chg : Bool
deriving DecidableEq, Repr

/-- What a register-file operation returns: LOOKUP's HIT(s) (`some s`) or MISS (`none`) (R160), the
code APPLY sets (R161-R164), the count DRAIN sets (R166). -/
inductive RfResult where
  | lookup (hit : Option Nat)
  | apply (code : StatusCode)
  | drain (n : Nat)
deriving DecidableEq, Repr

/-! ### The decode datapath -/

/-- What a `raise` ends a decode with (R202-R205). -/
inductive Cause where
  | notOursShort
  | notOursMagic
  | truncated (offset : Nat)
  | unknownType (t : BitVec 6)
  | badLightLen (g : BitVec 2)
deriving DecidableEq, Repr

/-- Which micro-step of the decoder comes next. -/
inductive Phase where
  /-- The header validator (R100). -/
  | header
  /-- The top of the record loop (R110). -/
  | record
  /-- The row that the light descriptor in `desc` selects (R75, R116). LIGHT itself runs its whole record in one
  micro-step, so no step enters this phase: it is where a descriptor row runs as an instruction of its own (log entry 4). -/
  | light
deriving DecidableEq, Repr

/-- The transient registers of one decode (R31-R37), with the device id the event still needs. -/
structure Datapath where
  phase : Phase
  /-- The device id of the DISCOVER in progress (R182). -/
  id : ByteString
  /-- `buf` (R31, R50). -/
  buf : Memory
  /-- `len` (R31). -/
  len : Nat
  /-- `cur`, the record cursor (R32). -/
  cur : Nat
  /-- `batt` (R33). -/
  batt : Byte
  /-- `temp_v`, `temp_raw` (R34). -/
  tempV : Bool
  tempRaw : Half
  /-- `light_v`, `light_ir`, `light_res`, `light_rng`, `light_val` (R35). -/
  lightV : Bool
  lightIr : Bool
  lightRes : BitVec 2
  lightRng : BitVec 2
  lightVal : Half
  /-- `S`, the summary accumulator (R36). -/
  summary : ByteString
  /-- `ctrl`; `T`, `D`, `A` are its fields (R37). -/
  ctrl : Byte
  /-- `desc` (R37). -/
  desc : Byte
deriving DecidableEq, Repr

/-! ### State -/

/-- The state of the block: the persistent state of R20, the decode in progress, and the model's own fields. -/
@[ext]
structure State where
  /-- The build's parameters (R4). The model's own field: no step changes it (log entry 1). -/
  params : Params
  /-- `RF` (R21). -/
  rf : List Slot
  /-- `halted` (R27). -/
  halted : Bool
  /-- `tick_pending` (R28). -/
  tickPending : Bool
  /-- `shutdown_pending` (R29). -/
  shutdownPending : Bool
  /-- `Q`, head first (R30). -/
  queue : List Discovery
  /-- The datapath of the decode in progress; none between events (R20, R41). -/
  decode : Option Datapath
  /-- What the last LOOKUP, APPLY or DRAIN run as an instruction of its own returned. The model's own field (log entry 8). -/
  result : Option RfResult
  /-- Every record the output ports have carried, oldest first. The model's own field (log entry 6). -/
  out : List Output
  /-- Offers the producer has still to make, in order. The model's own field (log entry 7). -/
  offers : List Discovery
  /-- Who acts next between events. The model's own field (log entry 3). -/
  turns : List Turn
  /-- Index of the next free value. The model's own field (log entries 2 and 3). -/
  freeCount : Nat
deriving DecidableEq, Repr

/-- Why the model stops. The block itself never does: every outcome of 60_exceptions.md is a next
state. -/
inductive Fault where
  /-- Raised by the meanings of the header, record and descriptor rows when no decode is in progress:
  the transient registers then hold no value, and U3 of 93_implementation_defined.md lets a model
  treat reading one as a fault. Safe: no run from an idle state raises it (log entry 4). -/
  | noDecode
  /-- Raised by the meaning of APPLY for an identifier longer than `P_KEY_MAX` or a summary longer
  than `P_SUMMARY_MAX`: the slot has no room, the block never issues it (R183, R146), and no rule
  gives it an effect. Safe (log entry 9). -/
  | operandRange
deriving DecidableEq, Repr

/-- Why the model has no meaning for an instruction. -/
inductive Refusal where
  /-- Raised by an arm of exec whose instruction has no meaning yet (none is left). Safe. -/
  | notModelled (mnemonic : String)
deriving DecidableEq, Repr

/-- What one instruction answers. -/
abbrev Result := Host.Outcome State Fault Refusal

/-- A slot after reset: `valid` and `chg` are 0 (R41). DESIGN CHOICE (log entry 5): R41 leaves `klen`,
`key`, `slen` and `sum` unspecified, and the model names zeros. -/
def Slot.reset (p : Params) : Slot :=
  { valid := false, klen := 0, key := List.replicate p.keyMax 0,
    slen := 0, sum := List.replicate p.summaryMax 0, chg := false }

/-- The state after reset of a build with parameters `p` (R41, R230), with the model's own fields at
the values of log entries 3 and 6 to 8. -/
def State.resetOf (p : Params) : State :=
  { params := p
    rf := List.replicate p.entries (Slot.reset p)
    halted := false
    tickPending := false
    shutdownPending := false
    queue := []
    decode := none
    result := none
    out := []
    offers := []
    turns := []
    freeCount := 0 }

/-- The machine right after reset, for the build `Config.params` (log entry 1). -/
def State.reset : State := State.resetOf Config.params

end Sys2Proof.Machine
end

