-- ==== Sys2Proof/Machine/Summary.lean ====
section
/-! DEFINITION. The summary text: decimal numbers, temperatures and segments (42_summary.md). -/

namespace Sys2Proof.Machine

/-! ### Numbers -/

/-- The ASCII digit of `n < 10`. -/
def digit (n : Nat) : Byte := BitVec.ofNat 8 (0x30 + n)

/-- Decimal text with `fuel` digits to spare. -/
def decFuel : Nat → Nat → ByteString
  | 0, _ => []
  | fuel + 1, n => if n < 10 then [digit n] else decFuel fuel (n / 10) ++ [digit (n % 10)]

/-- `dec(n)`: shortest base-10 ASCII text (R10). -/
def dec (n : Nat) : ByteString := decFuel (n + 1) n

/-- `rhe(p/q)`: nearest integer, an exact tie to the even one (R7, R143); `q` is positive. -/
def rhe (p : Int) (q : Nat) : Int :=
  let f := p / (q : Int)
  let r := p % (q : Int)
  if 2 * r < q then f
  else if 2 * r = q then (if f % 2 = 0 then f else f + 1)
  else f + 1

/-- `fmtTemp(t)`: sixteenths of a degree to one decimal (R143). -/
def fmtTemp (t : Int) : ByteString :=
  let q := rhe (5 * t) 8
  let m := q.natAbs
  (if q < 0 then [0x2d] else []) ++ dec (m / 10) ++ [0x2e] ++ dec (m % 10)

/-! ### Texts, in the bytes of R145 -/

/-- `"batt:"`. -/
def txtBatt : ByteString := [0x62, 0x61, 0x74, 0x74, 0x3a]
/-- `" light:"`. -/
def txtLight : ByteString := [0x20, 0x6c, 0x69, 0x67, 0x68, 0x74, 0x3a]
/-- `" temp:"`. -/
def txtTemp : ByteString := [0x20, 0x74, 0x65, 0x6d, 0x70, 0x3a]
/-- `"°C"`, the degree sign as `c2 b0`. -/
def txtDegC : ByteString := [0xc2, 0xb0, 0x43]
/-- `"true"`. -/
def txtTrue : ByteString := [0x74, 0x72, 0x75, 0x65]
/-- `"false"`. -/
def txtFalse : ByteString := [0x66, 0x61, 0x6c, 0x73, 0x65]
/-- `": "`. -/
def txtColon : ByteString := [0x3a, 0x20]
/-- `": new: "`. -/
def txtNew : ByteString := [0x3a, 0x20, 0x6e, 0x65, 0x77, 0x3a, 0x20]
/-- `"%"`. -/
def txtPercent : ByteString := [0x25]
/-- `"/"`. -/
def txtSlash : ByteString := [0x2f]

/-! ### Segments -/

/-- The battery segment (R140). -/
def battSegment (batt : Byte) : ByteString := txtBatt ++ dec batt.toNat ++ txtPercent

/-- `irText` (R141). -/
def irText (ir : Bool) : ByteString := if ir then txtTrue else txtFalse

/-- `lightSegment` (R141). -/
def lightSegment (ir : Bool) (res rng : BitVec 2) (val : Half) : ByteString :=
  txtLight ++ irText ir ++ txtSlash ++ dec res.toNat ++ txtSlash ++ dec rng.toNat ++ txtSlash ++ dec val.toNat

/-- `tempSegment`: the register read as s16 (R142). -/
def tempSegment (raw : Half) : ByteString := txtTemp ++ fmtTemp raw.toInt ++ txtDegC

/-! ### Log lines -/

/-- The text line of a log record (R191). -/
def logLine (kind : LogKind) (id summary : ByteString) : ByteString :=
  match kind with
  | .new => id ++ txtNew ++ summary
  | .changed => id ++ txtColon ++ summary

end Sys2Proof.Machine
end

