-- ==== Sys2Proof/Machine/Flags.lean ====
section
/-! DEFINITION. Flags: the fields of `ctrl` (R37), the enables of the events (R180, R190), the `chg` flag
and valid bit of a slot (R22, R25), and the numbers of the status codes (R201). -/

namespace Sys2Proof.Machine

/-- `T = ctrl[5:0]` (R37). -/
def Datapath.T (d : Datapath) : BitVec 6 := dataType d.ctrl

/-- `D = ctrl[6]` (R37). -/
def Datapath.D (d : Datapath) : Bool := hasData d.ctrl

/-- `A = ctrl[7]` (R37). -/
def Datapath.A (d : Datapath) : Bool := hasAlert d.ctrl

/-- The has-data gate: does the record go to dispatch (R110, R113, R114)? -/
def gateOpen (p : Params) (hasData : Bool) (t : BitVec 6) : Bool :=
  hasData || (p.termUngated && t == 0x3f)

/-- `RF[s].valid = 1 and RF[s].chg = 1`: DRAIN reports the slot (R166). -/
def Slot.reported (r : Slot) : Bool := r.valid && r.chg

/-- `RF[s].chg <- 0` (R166, R168). -/
def Slot.clearChg (r : Slot) : Slot := { r with chg := false }

/-- The instruction of an event (R82). -/
def Event.instr : Event → Instr
  | .discover => .discover
  | .tick => .tick
  | .shutdown => .shutdown

/-- The event id (R82). -/
def Event.id : Event → BitVec 2
  | .discover => 0
  | .tick => 1
  | .shutdown => 2

/-- The input that makes an event pending (R180, R211). -/
def pending (s : State) : Event → Bool
  | .discover => !s.queue.isEmpty
  | .tick => s.tickPending
  | .shutdown => s.shutdownPending

/-- The controller may take event `e`: not halted, no event in progress, and the event is pending
(R58, R180, R190). -/
def canTake (e : Event) (s : State) : Bool := !s.halted && s.decode.isNone && pending s e

/-- The events the controller may take (R180). -/
def enabled (s : State) : List Event :=
  [Event.discover, Event.tick, Event.shutdown].filter (fun e => canTake e s)

/-- The number of a status code (R201). -/
def StatusCode.num : StatusCode → Nat
  | .okNew => 0
  | .okChanged => 1
  | .okUnchanged => 2
  | .tableFull => 3
  | .notOursShort => 4
  | .notOursMagic => 5
  | .failTruncated => 6
  | .failUnknownType => 7
  | .failLightLen => 8
  | .refusedKey => 9
  | .refusedPayload => 10
  | .drainDone => 11
  | .halted => 12

/-- The status code of a cause (R201). -/
def Cause.code : Cause → StatusCode
  | .notOursShort => .notOursShort
  | .notOursMagic => .notOursMagic
  | .truncated _ => .failTruncated
  | .unknownType _ => .failUnknownType
  | .badLightLen _ => .failLightLen

/-- The info field of a cause (R201). -/
def Cause.info : Cause → Nat
  | .notOursShort => 0
  | .notOursMagic => 0
  | .truncated off => off
  | .unknownType t => t.toNat
  | .badLightLen g => g.toNat

end Sys2Proof.Machine
end

