-- ==== Sys2Proof/Machine/Ops.lean ====
section
/-! DEFINITION. The named operations: the payload buffer, the ports, ending a decode (the block's exception
entry and return), and the register file. -/

namespace Sys2Proof.Machine

/-! ### Payload buffer -/

/-- The bytes of a payload as cells from address `base` on (R31, R50). -/
def Memory.ofBytes (base : Nat) : ByteString → Memory
  | [] => []
  | b :: rest => (base, b) :: Memory.ofBytes (base + 1) rest

/-- The byte at an address; none where there is none (R50). -/
def Memory.read : Memory → Nat → Option Byte
  | [], _ => none
  | (k, b) :: rest, a => if k = a then some b else Memory.read rest a

/-- `n` bytes from `addr` on, little-endian: the sum of R51, zero-extended to 16 bits (R52). -/
def leBytes (m : Memory) (addr : Nat) : Nat → Option Half
  | 0 => some 0
  | n + 1 =>
    match m.read addr, leBytes m (addr + 1) n with
    | some b, some hi => some (b.zeroExtend 16 ||| hi <<< 8)
    | _, _ => none

/-- `MemRead(addr, n)` (R51). A listed length without its bytes, which no run reaches, raises too
(log entry 17). -/
def memRead (d : Datapath) (addr n : Nat) : Except Cause Half :=
  if d.len < addr + n then .error (.truncated addr)
  else
    match leBytes d.buf addr n with
    | some v => .ok v
    | none => .error (.truncated addr)

/-- `Skip(n)` (R55). -/
def skip (n : Nat) (d : Datapath) : Except Cause Datapath :=
  if d.len < d.cur + n then .error (.truncated d.cur)
  else .ok { d with cur := d.cur + n }

/-- `ctrl <- MemRead(cur, 1); cur <- cur + 1` (R111). -/
def fetchCtrl (d : Datapath) : Except Cause Datapath :=
  match memRead d d.cur 1 with
  | .error c => .error c
  | .ok v => .ok { d with ctrl := v.truncate 8, cur := d.cur + 1 }

/-! ### Ports -/

/-- `emit` (R8): a record on a port; no block state changes. -/
def State.emit (o : Output) (s : State) : State := { s with out := s.out ++ [o] }

/-- The status record of an event (R192). -/
def State.status (event : BitVec 2) (code : StatusCode) (info : Nat) (s : State) : State :=
  s.emit (.status event code info)

/-! ### Ending a decode -/

/-- Back to event selection: the transient registers are discarded, nothing is restored (R20, R210). -/
def State.endDecode (s : State) : State := { s with decode := none }

/-- `raise`: the one exception entry of the block. The decode ends at once, the status record
`(0, code, info)` is all that is saved, the datapath is discarded (R209). -/
def raiseDecode (c : Cause) (s : State) : State := s.endDecode.status 0 c.code c.info

/-! ### Register file -/

/-- The key bytes of a slot (R23). -/
def Slot.keyBytes (r : Slot) : ByteString := r.key.take r.klen

/-- The summary bytes of a slot (R24). -/
def Slot.sumBytes (r : Slot) : ByteString := r.sum.take r.slen

/-- `match[s]` of LOOKUP (R160). -/
def Slot.holds (k : ByteString) (r : Slot) : Bool :=
  r.valid && r.klen == k.length && r.key.take k.length == k

/-- `LOOKUP(k)`: HIT(s) is `some s`, MISS is `none` (R160). -/
def lookupKey (rf : List Slot) (k : ByteString) : Option Nat := rf.findIdx? (Slot.holds k)

/-- The free slot of lowest index (R161, R165). -/
def freeSlot (rf : List Slot) : Option Nat := rf.findIdx? (fun r => !r.valid)

/-- Write the first bytes of a storage, leaving the bytes after them. -/
def overwrite (new old : ByteString) : ByteString := new ++ old.drop new.length

/-- The slot APPLY-new writes (R161). -/
def Slot.create (id sum : ByteString) (r : Slot) : Slot :=
  { valid := true, klen := id.length, key := overwrite id r.key,
    slen := sum.length, sum := overwrite sum r.sum, chg := false }

/-- The slot APPLY-changed writes (R162). -/
def Slot.replace (sum : ByteString) (r : Slot) : Slot :=
  { r with slen := sum.length, sum := overwrite sum r.sum, chg := true }

/-- `RF[s].slen != |S| or RF[s].sum[0..|S|-1] != S` (R161). -/
def Slot.differs (sum : ByteString) (r : Slot) : Bool :=
  r.slen != sum.length || r.sum.take sum.length != sum

/-- `APPLY(id, S)`: the state after it and the code it sets (R161-R164). -/
def applyEntry (id sum : ByteString) (s : State) : State × StatusCode :=
  match lookupKey s.rf id with
  | none =>
    match freeSlot s.rf with
    | some i => (({ s with rf := s.rf.modify i (Slot.create id sum) } : State).emit (.log .new id sum), .okNew)
    | none => (s, .tableFull)
  | some i =>
    if (s.rf[i]?.map (Slot.differs sum)).getD false then
      ({ s with rf := s.rf.modify i (Slot.replace sum) }, .okChanged)
    else (s, .okUnchanged)

/-- The CHANGED record of a slot (R166, R191). -/
def Slot.changedLine (r : Slot) : Output := .log .changed r.keyBytes r.sumBytes

/-- `DRAIN`: the state after it and the number of lines (R166, R167). -/
def drainEntries (s : State) : State × Nat :=
  let hits := s.rf.filter Slot.reported
  ({ s with rf := s.rf.map (fun r => if r.reported then r.clearChg else r)
            out := s.out ++ hits.map Slot.changedLine }, hits.length)

/-! ### The Reading and the end of a successful decode -/

/-- The light descriptor of a Reading (R124). -/
structure LightReading where
  ir : Bool
  res : BitVec 2
  rng : BitVec 2
  val : Half
deriving DecidableEq, Repr

/-- The Reading of an `Ok` decode (R124). -/
structure Reading where
  battery : Byte
  temperature : Option Half
  light : Option LightReading
  summary : ByteString
deriving DecidableEq, Repr

/-- The Reading in the datapath registers (R124). -/
def Datapath.reading (d : Datapath) : Reading :=
  { battery := d.batt
    temperature := if d.tempV then some d.tempRaw else none
    light := if d.lightV then some ⟨d.lightIr, d.lightRes, d.lightRng, d.lightVal⟩ else none
    summary := d.summary }

/-- The gauge records of a Reading, battery first (R185, R148). -/
def gauges (id : ByteString) (r : Reading) : List Output :=
  .gauge id .battery r.battery.toNat ::
    (match r.temperature with
     | some t => [.gauge id .temperature t.toInt]
     | none => [])

/-- `finish Ok` and the `Ok` arm of DISCOVER: gauges, APPLY, status; then event selection (R182, R185). -/
def finishOk (d : Datapath) (s : State) : State :=
  let s1 : State := { s with out := s.out ++ gauges d.id d.reading }
  let (s2, code) := applyEntry d.id d.summary s1
  s2.endDecode.status 0 code 0

/-! ### Micro-steps of the decoder -/

/-- How a micro-step ends: the decode goes on, `finish Ok`, or a `raise` (R9, R110). -/
inductive Micro where
  | cont (d : Datapath)
  | finish (d : Datapath)
  | raised (c : Cause)
deriving DecidableEq, Repr

/-- The state after a micro-step, or after a whole decode, that ended so. -/
def settle (r : Micro) (s : State) : State :=
  match r with
  | .cont d => { s with decode := some d }
  | .finish d => finishOk d s
  | .raised c => raiseDecode c s

/-- Run one micro-step on the decode in progress; outside an event the transient registers hold no
value (U3). -/
def runMicro (f : Datapath → Micro) (s : State) : Result :=
  match s.decode with
  | none => .fault .noDecode
  | some d => .next (settle (f d) s)

/-- The latch of a DISCOVER: `buf <- payload; len <- |payload|; cur <- 0` (R182); every other transient
register holds a free value until a rule writes it. -/
def latch (free : Unwritten) (t : Discovery) : Datapath :=
  { phase := .header
    id := t.id
    buf := Memory.ofBytes 0 t.payload
    len := t.payload.length
    cur := 0
    batt := free.batt
    tempV := free.tempV
    tempRaw := free.tempRaw
    lightV := free.lightV
    lightIr := free.lightIr
    lightRes := free.lightRes
    lightRng := free.lightRng
    lightVal := free.lightVal
    summary := free.summary
    ctrl := free.ctrl
    desc := free.desc }

end Sys2Proof.Machine
end

