-- ==== Sys2Proof/Machine/Operands.lean ====
section
/-! DEFINITION. The operand forms of the records: the alert byte, 1- and 2-byte values at the cursor. -/

namespace Sys2Proof.Machine

/-- ALERT: `if A = 1: Skip(1)`, the byte itself unread (R112). -/
def alertSkip (a : Bool) (d : Datapath) : Except Cause Datapath :=
  if a then skip 1 d else .ok d

/-- The alert skip, then the rest of the record (R110). -/
def withAlert (a : Bool) (f : Datapath → Micro) (d : Datapath) : Micro :=
  match alertSkip a d with
  | .error c => .raised c
  | .ok d' => f d'

/-- A value of `n` bytes at the cursor: `v <- MemRead(cur, n); cur <- cur + n` (R116, R118). -/
def takeValue (n : Nat) (d : Datapath) : Except Cause (Half × Datapath) :=
  match memRead d d.cur n with
  | .error c => .error c
  | .ok v => .ok (v, { d with cur := d.cur + n })

/-- The descriptor byte: `desc <- MemRead(cur, 1); cur <- cur + 1` (R116). -/
def takeDesc (d : Datapath) : Except Cause Datapath :=
  match memRead d d.cur 1 with
  | .error c => .error c
  | .ok v => .ok { d with desc := v.truncate 8, cur := d.cur + 1 }

/-- A payload of `n` bytes skipped unread (R115, R119). -/
def skipPayload (n : Nat) (d : Datapath) : Micro :=
  match skip n d with
  | .error c => .raised c
  | .ok d' => .cont d'

end Sys2Proof.Machine
end

