-- ==== Sys2Proof/Machine/Header.lean ====
section
/-! DEFINITION. The header validator (40_header.md). -/

namespace Sys2Proof.Machine

/-- Do the bytes from offset `k` on match the rest of the magic prefix (R102)? -/
def magicFrom (d : Datapath) (k : Nat) : ByteString → Bool
  | [] => true
  | m :: rest =>
    (match memRead d k 1 with
     | .ok v => v == m.zeroExtend 16
     | .error _ => false) && magicFrom d (k + 1) rest

/-- HDRCHK (R100-R104, R140). -/
def hdrchk (d : Datapath) : Micro :=
  if d.len < 7 then .raised .notOursShort
  else if magicFrom d 0 magic then
    match memRead d 5 1 with
    | .error c => .raised c
    | .ok v =>
      let b : Byte := v.truncate 8
      .cont { d with phase := .record, batt := b, cur := 7, tempV := false, lightV := false, summary := battSegment b }
  else .raised .notOursMagic

/-- HDR (R100). -/
def execHdr (s : State) : Result := runMicro hdrchk s

end Sys2Proof.Machine
end

