-- ==== Sys2Proof/Machine/Light.lean ====
section
/-! DEFINITION. LIGHT records and the rows its descriptor byte selects (41_records.md R116, R117). -/

namespace Sys2Proof.Machine

/-- The registers a LIGHT record writes once its value has been read (R116). -/
def commitLight (ir : Bool) (res rng : BitVec 2) (v : Half) (d : Datapath) : Datapath :=
  { d with
    phase := .record, lightV := true, lightIr := ir, lightRes := res, lightRng := rng, lightVal := v
    summary := d.summary ++ lightSegment ir res rng v }

/-- The value of `n` bytes after the descriptor, then the commit (R116). -/
def lightValue (n : Nat) (ir : Bool) (res rng : BitVec 2) (d : Datapath) : Micro :=
  match takeValue n d with
  | .error c => .raised c
  | .ok (v, d') => .cont (commitLight ir res rng v d')

/-- A length code other than 1 and 2: a one-byte value under `P_LIGHT_LEN_LEGACY`, else
`raise BadLightLen(g)` before any value byte is read (R116, R76, D12). -/
def lightBadLen (p : Params) (g : BitVec 2) (ir : Bool) (res rng : BitVec 2) (d : Datapath) : Micro :=
  if p.lightLenLegacy then lightValue 1 ir res rng d else .raised (.badLightLen g)

/-- The arm of LIGHT that the length code picks (R116). -/
def lightByLen (p : Params) (g : BitVec 2) (ir : Bool) (res rng : BitVec 2) (d : Datapath) : Micro :=
  if g = 2 then lightValue 2 ir res rng d
  else if g = 1 then lightValue 1 ir res rng d
  else lightBadLen p g ir res rng d

/-- LIGHT after the alert byte: descriptor, length code, value (R116). -/
def light (p : Params) (d : Datapath) : Micro :=
  match takeDesc d with
  | .error c => .raised c
  | .ok d' => lightByLen p (lenCode d'.desc) (isIR d'.desc) (resolution d'.desc) (rangeCode d'.desc) d'

/-- LIGHT (R116): the whole record after its control byte. -/
def execLight (alert : Bool) (s : State) : Result := runMicro (withAlert alert (light s.params)) s

/-- LIGHT8 (R116): the descriptor has been read; a one-byte value follows. -/
def execLight8 (ir : Bool) (res rng : BitVec 2) (s : State) : Result :=
  runMicro (lightValue 1 ir res rng) s

/-- LIGHT16 (R116): the descriptor has been read; a two-byte value follows. -/
def execLight16 (ir : Bool) (res rng : BitVec 2) (s : State) : Result :=
  runMicro (lightValue 2 ir res rng) s

/-- LIGHT.BADLEN0 (R116, R76). -/
def execLightBadLen0 (ir : Bool) (res rng : BitVec 2) (s : State) : Result :=
  runMicro (lightBadLen s.params 0 ir res rng) s

/-- LIGHT.BADLEN3 (R116, R76). -/
def execLightBadLen3 (ir : Bool) (res rng : BitVec 2) (s : State) : Result :=
  runMicro (lightBadLen s.params 3 ir res rng) s

end Sys2Proof.Machine
end

