-- ==== Sys2Proof/Machine/Records.lean ====
section
/-! DEFINITION. The other record handlers, dispatch and the record loop (41_records.md). -/

namespace Sys2Proof.Machine

/-! ### Handlers, after the control byte and the alert byte -/

/-- ENC: `finish Ok` (R120). -/
def enc (d : Datapath) : Micro := .finish d

/-- NODATA: on to the next record, unless `P_TERM_UNGATED` sends type 0x3f to ENC (R113). -/
def nodata (p : Params) (t : BitVec 6) (d : Datapath) : Micro :=
  if gateOpen p false t then enc d else .cont d

/-- MOTION: `Skip(2)` (R115). -/
def motion (d : Datapath) : Micro := skipPayload 2 d

/-- TEMP (R118): the register holds the 16-bit pattern, read as s16. -/
def temp (d : Datapath) : Micro :=
  match takeValue 2 d with
  | .error c => .raised c
  | .ok (v, d') => .cont { d' with tempV := true, tempRaw := v, summary := d'.summary ++ tempSegment v }

/-- PAIR: `Skip(1)` (R119). -/
def pair (d : Datapath) : Micro := skipPayload 1 d

/-- UNKNOWN: `raise UnknownType(T)` (R121). -/
def unknown (t : BitVec 6) (_d : Datapath) : Micro := .raised (.unknownType t)

/-! ### Meanings -/

/-- NOP (R113). -/
def execNop (alert : Bool) (type : BitVec 6) (s : State) : Result :=
  runMicro (withAlert alert (nodata s.params type)) s

/-- MOTION (R115). -/
def execMotion (alert : Bool) (s : State) : Result := runMicro (withAlert alert motion) s

/-- TEMP (R118). -/
def execTemp (alert : Bool) (s : State) : Result := runMicro (withAlert alert temp) s

/-- PAIR (R119). -/
def execPair (alert : Bool) (s : State) : Result := runMicro (withAlert alert pair) s

/-- ENC (R120). -/
def execEnc (alert : Bool) (s : State) : Result := runMicro (withAlert alert enc) s

/-- UNKNOWN (R121). -/
def execUnknown (alert : Bool) (type : BitVec 6) (s : State) : Result :=
  runMicro (withAlert alert (unknown type)) s

/-! ### The record loop -/

/-- The gate and DISPATCH on `D` and `T` (R113, R114). -/
def dispatch (p : Params) (d : Datapath) : Micro :=
  if gateOpen p d.D d.T then
    if d.T = 0x01 then motion d
    else if d.T = 0x02 then light p d
    else if d.T = 0x03 then temp d
    else if d.T = 0x2f then pair d
    else if d.T = 0x3f then enc d
    else unknown d.T d
  else .cont d

/-- One iteration of RLOOP (R110). -/
def recordStep (p : Params) (d : Datapath) : Micro :=
  if d.cur = d.len then .finish d
  else
    match fetchCtrl d with
    | .error c => .raised c
    | .ok d' => withAlert d'.A (dispatch p) d'

/-- RLOOP with a bound on its iterations (R110, R123); `cont` would mean the bound was too small. -/
def rloop (p : Params) : Nat → Datapath → Micro
  | 0, d => .cont d
  | fuel + 1, d =>
    match recordStep p d with
    | .cont d' => rloop p fuel d'
    | r => r

/-- HDRCHK, then RLOOP (R182). `len + 1` iterations are enough (R123). -/
def decodeRun (p : Params) (d : Datapath) : Micro :=
  match hdrchk d with
  | .cont d' => rloop p (d'.len + 1) d'
  | r => r

end Sys2Proof.Machine
end

