-- ==== Sys2Proof/Machine/RegFile.lean ====
section
/-! DEFINITION. The register-file operations as instructions of their own (43_regfile.md). What they return
goes to `result` (log entry 8). -/

namespace Sys2Proof.Machine

/-- LOOKUP (R160). -/
def execLookup (key : ByteString) (s : State) : Result :=
  .next { s with result := some (.lookup (lookupKey s.rf key)) }

/-- APPLY (R161-R164), for operands the slot storage can hold. -/
def execApply (id summary : ByteString) (s : State) : Result :=
  if id.length ≤ s.params.keyMax ∧ summary.length ≤ s.params.summaryMax then
    let (s', code) := applyEntry id summary s
    .next { s' with result := some (.apply code) }
  else .fault .operandRange

/-- DRAIN (R166). -/
def execDrain (s : State) : Result :=
  let (s', n) := drainEntries s
  .next { s' with result := some (.drain n) }

end Sys2Proof.Machine
end

