-- ==== Sys2Proof/Machine/Events.lean ====
section
/-! DEFINITION. The three events and the four inputs (44_events.md, 70_reset_and_hazards.md). -/

namespace Sys2Proof.Machine

/-! ### Events -/

/-- DISCOVER once its triple has left `Q`: the two refusals, then latch, decode and outcome
(R182-R185, R207). -/
def discoverTriple (t : Discovery) (s : State) : State :=
  if s.params.keyMax < t.id.length then s.status 0 .refusedKey t.id.length
  else if s.params.maxPayload < t.payload.length then s.status 0 .refusedPayload t.payload.length
  else
    settle (decodeRun s.params (latch (Config.unwritten s.freeCount) t))
      { s with freeCount := s.freeCount + 1 }

/-- DISCOVER (R182). An event that is not enabled is not taken: the controller waits (R180, R190). -/
def execDiscover (s : State) : Result :=
  if canTake .discover s then
    match s.queue with
    | [] => .next s
    | t :: rest => .next (discoverTriple t { s with queue := rest })
  else .next s

/-- TICK (R187). -/
def execTick (s : State) : Result :=
  if canTake .tick s then
    let (s', n) := drainEntries { s with tickPending := false }
    .next (s'.status 1 .drainDone n)
  else .next s

/-- SHUTDOWN (R189). -/
def execShutdown (s : State) : Result :=
  if canTake .shutdown s then
    .next (({ s with halted := true, queue := [], tickPending := false } : State).status 2 .halted s.queue.length)
  else .next s

/-! ### Inputs -/

/-- The producer offers its next triple: taken when there is room, held when `Q` is full, taken and
discarded when halted (R181, R190). -/
def inputOffer (s : State) : State :=
  match s.offers with
  | [] => s
  | t :: rest =>
    if s.halted then { s with offers := rest }
    else if s.queue.length < s.params.queueDepth then { s with offers := rest, queue := s.queue ++ [t] }
    else s

/-- An assertion of the tick input (R188, R190). -/
def inputTick (s : State) : State := if s.halted then s else { s with tickPending := true }

/-- An assertion of the shutdown input (R29, R190). -/
def inputShutdown (s : State) : State := if s.halted then s else { s with shutdownPending := true }

/-- An assertion of the reset input (R230): the block's state goes to its reset values and nothing is
emitted; what lies outside the block, and the build, stay. -/
def inputReset (s : State) : State :=
  { State.resetOf s.params with
    result := s.result, out := s.out, offers := s.offers, turns := s.turns, freeCount := s.freeCount }

end Sys2Proof.Machine
end

