-- ==== Sys2Proof/Machine/Dispatch.lean ====
section
/-! DEFINITION. exec: one arm per instruction. -/

namespace Sys2Proof.Machine

def exec (i : Instr) (s : State) : Host.Outcome State Fault Refusal :=
  match i with
  | .hdr => Sys2Proof.Machine.execHdr s
  | .nop alert type => Sys2Proof.Machine.execNop alert type s
  | .motion alert => Sys2Proof.Machine.execMotion alert s
  | .light alert => Sys2Proof.Machine.execLight alert s
  | .light8 ir _ res rng => Sys2Proof.Machine.execLight8 ir res rng s
  | .light16 ir _ res rng => Sys2Proof.Machine.execLight16 ir res rng s
  | .lightBadLen0 ir _ res rng => Sys2Proof.Machine.execLightBadLen0 ir res rng s
  | .lightBadLen3 ir _ res rng => Sys2Proof.Machine.execLightBadLen3 ir res rng s
  | .temp alert => Sys2Proof.Machine.execTemp alert s
  | .pair alert => Sys2Proof.Machine.execPair alert s
  | .enc alert => Sys2Proof.Machine.execEnc alert s
  | .unknown alert type => Sys2Proof.Machine.execUnknown alert type s
  | .discover => Sys2Proof.Machine.execDiscover s
  | .tick => Sys2Proof.Machine.execTick s
  | .shutdown => Sys2Proof.Machine.execShutdown s
  | .lookup key => Sys2Proof.Machine.execLookup key s
  | .apply id summary => Sys2Proof.Machine.execApply id summary s
  | .drain => Sys2Proof.Machine.execDrain s

end Sys2Proof.Machine
end

