-- ==== Sys2Proof/Machine/Fetch.lean ====
section
/-! DEFINITION. What comes next: the next micro-step of a decode in progress, or the next turn between
events (R11, R58, R180). -/

namespace Sys2Proof.Machine

/-- What a step finds to do. -/
inductive Fetched where
  /-- Run an instruction on the state that the fetch leaves. -/
  | run (i : Instr) (s : State)
  /-- Nothing to run: the step is the state given. -/
  | over (s : State)
deriving DecidableEq, Repr

/-- The next micro-step of a decode in progress: the header validator, the record at the cursor (after
R111), the end of the buffer (R122), or the row the fetched descriptor selects. -/
def fetchMicro (d : Datapath) (s : State) : Fetched :=
  match d.phase with
  | .header => .run .hdr s
  | .record =>
    if d.cur = d.len then .over (finishOk d s)
    else
      match fetchCtrl d with
      | .error c => .over (raiseDecode c s)
      | .ok d' => .run (decodeCtrl d'.ctrl) { s with decode := some d' }
  | .light => .run (decodeDesc d.desc) s

/-- With no turn given, the controller takes an enabled event; among several a free value chooses
(R180, R208). With none enabled it waits. -/
def selectFree (s : State) : Fetched :=
  match enabled s with
  | [] => .over s
  | [e] => .run e.instr s
  | e :: es =>
    .run (((e :: es)[Config.freeSelect s.freeCount % (e :: es).length]?).getD e).instr
      { s with freeCount := s.freeCount + 1 }

/-- The next turn: an input, an event the controller is given to take (it passes when the event is not
enabled), or the controller's own choice. -/
def fetchTurn (s : State) : Fetched :=
  match s.turns with
  | [] => selectFree s
  | .offer :: rest => .over (inputOffer { s with turns := rest })
  | .assertTick :: rest => .over (inputTick { s with turns := rest })
  | .assertShutdown :: rest => .over (inputShutdown { s with turns := rest })
  | .assertReset :: rest => .over (inputReset { s with turns := rest })
  | .take e :: rest =>
    if canTake e s then .run e.instr { s with turns := rest } else .over { s with turns := rest }

/-- What the next step does. -/
def fetch (s : State) : Fetched :=
  match s.decode with
  | some d => fetchMicro d s
  | none => fetchTurn s

/-! ### Placing an instruction where the fetch finds it -/

/-- A decode in progress whose next record is at `bytes`, after a header with battery byte 0 as HDRCHK
leaves it. -/
def placeRecord (bytes : ByteString) : Datapath :=
  { phase := .record
    id := []
    buf := Memory.ofBytes 0 (headerBytes 0 0 ++ bytes)
    len := 7 + bytes.length
    cur := 7
    batt := 0
    tempV := false
    tempRaw := 0
    lightV := false
    lightIr := false
    lightRes := 0
    lightRng := 0
    lightVal := 0
    summary := battSegment 0
    ctrl := 0
    desc := 0 }

/-- A decode in progress that is about to validate the header at `bytes`. -/
def placeHeader (bytes : ByteString) : Datapath :=
  { placeRecord [] with phase := .header, buf := Memory.ofBytes 0 bytes, len := bytes.length, cur := 0 }

/-- A state in which the controller takes event `e` next. -/
def placeEvent (e : Event) (s : State) : State :=
  { s with
    halted := false
    decode := none
    turns := .take e :: s.turns
    queue := if e = .discover ∧ s.queue = [] then [⟨[], [], 0⟩] else s.queue
    tickPending := s.tickPending || decide (e = .tick)
    shutdownPending := s.shutdownPending || decide (e = .shutdown) }

/-- The state with the instruction of a table word where the next step fetches (log entries 10, 11). -/
def placeWord (s : State) (nbits w : Nat) : State :=
  if nbits ≤ 2 then
    match w with
    | 0 => placeEvent .discover s
    | 1 => placeEvent .tick s
    | 2 => placeEvent .shutdown s
    | _ => s
  else if 56 ≤ nbits then { s with halted := false, decode := some (placeHeader (wordBytes 7 w)) }
  else { s with halted := false, decode := some (placeRecord (wordBytes 5 w)) }

end Sys2Proof.Machine
end

