-- ==== Sys2Proof/Safety.lean ====
section
/-! DEFINITION. What a sound state is: the invariant of the block, in the terms the statements use. -/

namespace Sys2Proof.Machine

/-- The storage of a slot has its widths (R22), and only an entry can be marked changed (R25, R41). -/
def Slot.wf (p : Params) (r : Slot) : Prop :=
  r.klen ≤ p.keyMax ∧ r.key.length = p.keyMax ∧ r.slen ≤ p.summaryMax ∧ r.sum.length = p.summaryMax ∧
    (r.chg = true → r.valid = true)

/-- No two valid slots hold equal keys (R26). -/
def UniqueKeys (rf : List Slot) : Prop :=
  rf.Pairwise (fun a b => a.valid = true → b.valid = true → a.keyBytes ≠ b.keyBytes)

/-- Slots fill from index 0 up: below a valid slot every slot is valid (R165). -/
def FilledFromZero (rf : List Slot) : Prop :=
  rf.Pairwise (fun a b => b.valid = true → a.valid = true)

/-- The register file is sound (R21, R22, R26, R165). -/
def RfWf (p : Params) (rf : List Slot) : Prop :=
  rf.length = p.entries ∧ (∀ r ∈ rf, r.wf p) ∧ UniqueKeys rf ∧ FilledFromZero rf

/-- The buffer of a decode holds exactly `bytes`, latched from offset 0 (R31, R50). -/
def Datapath.holds (d : Datapath) (bytes : ByteString) : Prop :=
  d.buf = Memory.ofBytes 0 bytes ∧ d.len = bytes.length

/-- The datapath is sound: the buffer in its canonical form, the cursor within it (R31, R32), and the
summary within the bound of R146 for the bytes consumed so far. -/
def Datapath.wf (p : Params) (d : Datapath) : Prop :=
  d.id.length ≤ p.keyMax ∧ d.holds (d.buf.map Prod.snd) ∧ d.len ≤ p.maxPayload ∧ d.cur ≤ d.len ∧
    match d.phase with
    | .header => d.cur = 0
    | .record => 7 ≤ d.cur ∧ 3 * d.summary.length ≤ 27 + 20 * (d.cur - 7)
    | .light => 9 ≤ d.cur ∧ 3 * d.summary.length ≤ 27 + 20 * (d.cur - 9)

/-- The invariant of the block. -/
def State.Inv (s : State) : Prop :=
  s.params.wf ∧ RfWf s.params s.rf ∧ s.queue.length ≤ s.params.queueDepth ∧
    (s.halted = true → s.queue = [] ∧ s.tickPending = false ∧ s.shutdownPending = true ∧ s.decode = none) ∧
    (∀ d, s.decode = some d → d.wf s.params)

end Sys2Proof.Machine
end

