-- ==== Sys2Proof/Certificates/Slice0/Obligations.lean ====
section
/-! DEFINITION. The statements for the provers, from the numbered rules of spec/. A conclusion
`exec i s = .next t` with `t` written as an update of `s` is also the frame: every field that the update does not
name, and every byte of the payload buffer, is as before. -/

namespace Sys2Proof.Stmt

open Sys2Proof.Machine

/-- The state `s` with the decode in progress at datapath `d`. -/
def going (s : State) (d : Datapath) : State := { s with decode := some d }

/-- The state after a `raise` (R209): the decode is over, one status record is out, nothing else differs. -/
def failed (s : State) (code : StatusCode) (info : Nat) : State :=
  { s with decode := none, out := s.out ++ [.status 0 code info] }

/-- `t` is the state after `finish Ok` with datapath `d` in state `s` (R182, R185, R186): the battery gauge, the
temperature gauge when there is a temperature, what APPLY does with the id and the summary, the status record with
APPLY's code; the decode is over and nothing else differs. -/
def afterOk (d : Datapath) (s t : State) : Prop :=
  t = { s with
        decode := none
        rf := (applyEntry d.id d.summary s).1.rf
        out := s.out ++ [.gauge d.id .battery d.batt.toNat]
          ++ (if d.tempV = true then [.gauge d.id .temperature d.tempRaw.toInt] else [])
          ++ (if (applyEntry d.id d.summary s).2 = .okNew then [.log .new d.id d.summary] else [])
          ++ [.status 0 (applyEntry d.id d.summary s).2 0] }

/-- Is the output record a status record? -/
def isStatus : Output → Bool
  | .status _ _ _ => true
  | _ => false

/-- The summary segment a record of the R83 notation contributes (R141, R142, R144). -/
def segment (r : Rec) : ByteString :=
  match r.body with
  | .light8 i res rng v => lightSegment i res rng (v.zeroExtend 16)
  | .light16 i res rng v => lightSegment i res rng v
  | .temp v => tempSegment v
  | _ => []

/-- What a value record says in a summary: the light fields, or the temperature in tenths as R143 rounds it. -/
inductive Value where
  | light (ir : Bool) (res rng : BitVec 2) (val : Half)
  | temp (tenths : Int)
deriving DecidableEq, Repr

/-- The value a record says, if any. -/
def value (r : Rec) : Option Value :=
  match r.body with
  | .light8 i res rng v => some (.light i res rng (v.zeroExtend 16))
  | .light16 i res rng v => some (.light i res rng v)
  | .temp v => some (.temp (rhe (5 * v.toInt) 8))
  | _ => none

/-- The temperature of the last TEMP record (R125). -/
def lastTemp (rs : List Rec) : Option Half :=
  (rs.filterMap (fun r => match r.body with | .temp v => some v | _ => none)).getLast?

/-- The light fields of the last LIGHT record (R125). -/
def lastLight (rs : List Rec) : Option LightReading :=
  (rs.filterMap (fun r => match r.body with
    | .light8 i res rng v => some ⟨i, res, rng, v.zeroExtend 16⟩
    | .light16 i res rng v => some ⟨i, res, rng, v⟩
    | _ => none)).getLast?

/-- The record does not end the decode (R113, R120). -/
def goesOn (p : Params) (r : Rec) : Prop :=
  r.body ≠ .enc ∧ ¬ (p.termUngated = true ∧ r.body = .nop 0x3f)

/-- Two ends of a decode that no port and no later event can tell apart. -/
def sameEnd (x y : Micro) : Prop :=
  (∃ c, x = .raised c ∧ y = .raised c) ∨
  (∃ d e, x = .finish d ∧ y = .finish e ∧ d.id = e.id ∧ d.reading = e.reading)

/-- The steps `s` takes outside a decode do not begin with an assertion of reset. -/
def noResetNext (s : State) : Prop := s.decode = none → s.turns.head? ≠ some .assertReset

end Sys2Proof.Stmt

open Sys2Proof Sys2Proof.Machine Sys2Proof.Stmt

/-! ### Reset, the invariant, the step -/

/-- R41: after reset every slot is invalid with `chg = 0`, there are `P_ENTRIES` of them, the three flags are 0, `Q`
is empty and the transient registers hold no value. -/
def Obligations.ResetLeavesTheBlockEmptyAndIdle : Prop :=
  State.reset.rf.length = State.reset.params.entries ∧
  (∀ r ∈ State.reset.rf, r.valid = false ∧ r.chg = false) ∧
  State.reset.halted = false ∧ State.reset.tickPending = false ∧ State.reset.shutdownPending = false ∧
  State.reset.queue = [] ∧ State.reset.decode = none

/-- R230: the reset input, between events, in any state (halted too), puts every slot at `valid = 0`, `chg = 0`, the
flags at 0 and `Q` at empty, and emits nothing. That the outside and the build stay is the model's choice (log
entry 14). -/
def Obligations.ResetInputClearsTheBlockSilently : Prop :=
  ∀ (s : State) (rest : List Turn), s.decode = none → s.turns = .assertReset :: rest →
    ∃ t, step s = .next t ∧ t.rf.length = s.params.entries ∧ (∀ r ∈ t.rf, r.valid = false ∧ r.chg = false) ∧
      t.halted = false ∧ t.tickPending = false ∧ t.shutdownPending = false ∧ t.queue = [] ∧ t.decode = none ∧
      t.out = s.out ∧ t.params = s.params ∧ t.offers = s.offers ∧ t.turns = rest

/-- The state after reset meets the invariant. -/
def Obligations.ResetStateMeetsTheInvariant : Prop := State.reset.Inv

/-- Every step keeps the invariant: the register file has its slots with their widths, no two valid slots hold equal
keys (R26), slots fill from index 0 (R165), only entries are marked changed, `Q` never exceeds its depth (R30), the
payload buffer stays canonical, the cursor never passes `len` (R32), the summary stays within its bound (R146), and a
halted block has nothing queued and no tick pending (R189, R190). -/
def Obligations.StepKeepsTheInvariant : Prop :=
  ∀ s t : State, s.Inv → step s = .next t → t.Inv

/-- R200: no outcome stops the controller. Whatever the state, a step answers a next state. -/
def Obligations.StepAlwaysAnswersANextState : Prop :=
  ∀ s : State, ∃ t, step s = .next t

/-- R20: nothing of a decode is left between events: from a state with no decode in progress, a step leaves none. -/
def Obligations.EventsLeaveNoDecodeInProgress : Prop :=
  ∀ s t : State, s.decode = none → step s = .next t → t.decode = none

/-- R4: no event, input or micro-step changes a parameter. -/
def Obligations.ParametersNeverChange : Prop :=
  ∀ s t : State, step s = .next t → t.params = s.params

/-- A step at a record runs the decoded instruction: the control byte at the cursor goes to `ctrl`, the cursor moves
past it (R111), and exec runs the instruction the byte decodes to. -/
def Obligations.StepRunsTheRecordAtTheCursor : Prop :=
  ∀ (s : State) (d : Datapath) (b : Byte), s.decode = some d → d.phase = .record → d.cur < d.len →
    d.buf.read d.cur = some b →
    step s = exec (decodeCtrl b) (going s { d with ctrl := b, cur := d.cur + 1 })

/-- R182: a step at the header runs HDR. The second clause is the model's choice (log entry 4): in the phase `light`, which
no step enters, a step runs the row that the descriptor in `desc` decodes to. -/
def Obligations.StepRunsTheHeaderAndTheDescriptorRow : Prop :=
  ∀ (s : State) (d : Datapath), s.decode = some d →
    (d.phase = .header → step s = exec .hdr s) ∧
    (d.phase = .light → step s = exec (decodeDesc d.desc) s)

/-- R180: the controller may take any enabled event, in every order: given event `e` to take, the step is `e`'s
instruction when `e` is enabled and passes otherwise; given no turn it takes some enabled event, or waits when none is
enabled. Turns are the model's way to name the choice (log entry 3). -/
def Obligations.StepTakesAnyEnabledEvent : Prop :=
  ∀ s : State, s.decode = none →
    (∀ (e : Event) (rest : List Turn), s.turns = .take e :: rest →
      (canTake e s = true → step s = exec e.instr { s with turns := rest }) ∧
      (canTake e s = false → step s = .next { s with turns := rest })) ∧
    (s.turns = [] →
      ((∀ e, canTake e s = false) → step s = .next s) ∧
      ((∃ e, canTake e s = true) →
        ∃ e n, canTake e s = true ∧ step s = exec e.instr { s with freeCount := n }))

/-- R122: with the cursor at `len` the decode ends `Ok`. -/
def Obligations.EndOfBufferFinishesTheDecode : Prop :=
  ∀ (s : State) (d : Datapath), s.decode = some d → d.phase = .record → d.cur = d.len →
    ∃ t, step s = .next t ∧ afterOk d s t

/-! ### Decoding and encoding -/

/-- Decoding gives back every well-formed encoded instruction, with every value of its fields; the operand bytes
that follow are untouched (a header has at least its two operand bytes). -/
def Obligations.DecodingAnEncodedInstructionGivesItBack : Prop :=
  ∀ (p : Params) (i : Instr) (sp : Space) (rest : ByteString), i.wf p = true → i.space = some sp →
    (sp = .header → 2 ≤ rest.length) → decode sp (encode i ++ rest) = .ok (i, rest)

/-- The other direction: what decodes is well-formed, belongs to the space, and its bytes are its encoding. -/
def Obligations.DecodedBytesAreTheEncoding : Prop :=
  ∀ (p : Params) (i : Instr) (sp : Space) (bytes rest : ByteString), decode sp bytes = .ok (i, rest) →
    i.wf p = true ∧ i.space = some sp ∧ bytes = encode i ++ rest

/-- R79: the class of each of the 256 control bytes under the default parameters, as the table's ranges give it. -/
def Obligations.ControlBytesFallInTheTablesClasses : Prop :=
  ∀ b : Byte,
    let a := decide (0x80 ≤ b.toNat)
    let n := b.toNat % 128
    decodeCtrl b =
      if n < 0x40 then .nop a (BitVec.ofNat 6 n)
      else if n = 0x41 then .motion a
      else if n = 0x42 then .light a
      else if n = 0x43 then .temp a
      else if n = 0x6f then .pair a
      else if n = 0x7f then .enc a
      else .unknown a (BitVec.ofNat 6 n)

/-- Words written out from the spec's encodings (R71, R72, R75, R82) decode to their instructions. -/
def Obligations.SpecWordsDecodeToTheirInstructions : Prop :=
  decode .header [0x85, 0x00, 0x02, 0x00, 0x3c, 0x32, 0x00] = .ok (.hdr, [0x32, 0x00]) ∧
  decode .record [0xc3, 0xaa, 0x90, 0x01] = .ok (.temp true, [0xaa, 0x90, 0x01]) ∧
  decode .record [0x3f] = .ok (.nop false 0x3f, []) ∧
  decode .record [0xd0] = .ok (.unknown true 0x10, []) ∧
  decode .descriptor [0xb6, 0xe8, 0x03] = .ok (.light16 true false 3 1, [0xe8, 0x03]) ∧
  decode .descriptor [0x45, 0x07] = .ok (.light8 false true 0 1, [0x07]) ∧
  decode .event [0x01] = .ok (.tick, []) ∧
  decode .event [0x03] = .error .reservedEvent ∧
  decode .header [0x84, 0x00, 0x02, 0x00, 0x3c, 0x32, 0x00] = .error .badMagic

/-- R78: where `reclen` gives a length that fits, the record step moves the cursor by exactly that length, 1 to 5
bytes; where it does not fit the decode ends `Truncated`; TERMINAL ends it `Ok` and an ILLEGAL verdict raises it,
once the control and alert bytes are there. -/
def Obligations.RecordLengthIsWhatTheRecordStepConsumes : Prop :=
  ∀ (p : Params) (d : Datapath) (bytes : ByteString), d.holds bytes →
    (∀ n, recLen p (bytes.drop d.cur) = .bytes n →
      1 ≤ n ∧ n ≤ 5 ∧
      (d.cur + n ≤ d.len → ∃ d', recordStep p d = .cont d' ∧ d'.cur = d.cur + n) ∧
      (d.len < d.cur + n → ∃ off, recordStep p d = .raised (.truncated off))) ∧
    (∀ c, bytes[d.cur]? = some c → d.cur + 1 + (hasAlert c).toNat ≤ d.len →
      (recLen p (bytes.drop d.cur) = .terminal → ∃ d', recordStep p d = .finish d') ∧
      (∀ g, recLen p (bytes.drop d.cur) = .illegalLight g → recordStep p d = .raised (.badLightLen g)) ∧
      (∀ t, recLen p (bytes.drop d.cur) = .illegalType t → recordStep p d = .raised (.unknownType t)))

/-! ### Numbers and summaries -/

/-- R10: `dec(n)` is non-empty, holds only digits, reads back as `n`, and has no leading zero unless it is `"0"`. -/
def Obligations.DecIsTheShortestDecimalText : Prop :=
  ∀ n : Nat,
    (dec n).foldl (fun acc b => 10 * acc + (b.toNat - 0x30)) 0 = n ∧
    (∀ b ∈ dec n, 0x30 ≤ b.toNat ∧ b.toNat ≤ 0x39) ∧
    (dec n = [0x30] ∨ ∃ b rest, dec n = b :: rest ∧ b ≠ 0x30)

/-- R7, R143: `rhe(p/q)` is a nearest integer of p/q, and the even one on an exact tie. -/
def Obligations.RheRoundsToNearestTiesToEven : Prop :=
  ∀ (p : Int) (q : Nat), 0 < q →
    2 * (p - q * rhe p q).natAbs ≤ q ∧ (2 * (p - q * rhe p q).natAbs = q → rhe p q % 2 = 0)

/-- R143: the temperature text is that of the tenths `q = rhe(5t/8)`: sign, `|q| div 10`, a point, `|q| mod 10`. It is
also the sign of `t`, the whole degrees `|t| div 16`, a point and the tenths digit of the rule's table, which depends on
`|t| mod 16` alone (the spec marks table and examples as derived from the pseudocode). -/
def Obligations.FmtTempFollowsTheTenthsTable : Prop :=
  ∀ t : Int,
    fmtTemp t = (if rhe (5 * t) 8 < 0 then [0x2d] else []) ++ dec ((rhe (5 * t) 8).natAbs / 10) ++ [0x2e] ++
      dec ((rhe (5 * t) 8).natAbs % 10) ∧
    fmtTemp t = (if t < 0 then [0x2d] else []) ++ dec (t.natAbs / 16) ++ [0x2e] ++
      dec ([0, 1, 1, 2, 2, 3, 4, 4, 5, 6, 6, 7, 8, 8, 9, 9].getD (t.natAbs % 16) 0)

/-- R147 (marked as derived by the spec): two summaries are equal exactly when the batteries are equal and the sequences of
value records agree, temperatures after rounding to tenths. -/
def Obligations.SummariesAreEqualExactlyWhenTheirFieldsAre : Prop :=
  ∀ (b b' : Byte) (rs rs' : List Rec),
    battSegment b ++ rs.flatMap segment = battSegment b' ++ rs'.flatMap segment ↔
      b = b' ∧ rs.filterMap value = rs'.filterMap value

/-- R146: a payload of `len` bytes that decodes `Ok` has a summary of at most `9 + ceil(20 * (len - 7) / 3)` bytes,
and a payload the block accepts has one that fits a slot (the spec marks R146 as its own derivation). -/
def Obligations.SummaryNeverOverflowsItsSlot : Prop :=
  ∀ (p : Params) (free : Unwritten) (t : Discovery) (d : Datapath),
    decodeRun p (latch free t) = .finish d →
    d.summary.length ≤ 9 + (20 * (t.payload.length - 7) + 2) / 3 ∧
    (t.payload.length ≤ p.maxPayload → d.summary.length ≤ p.summaryMax)

/-! ### Payload buffer -/

/-- R51: a read within the buffer gives the bytes at the offset, the lower offset less significant; a read that would
pass `len` raises `Truncated` at the offset it began at. Any offset may hold a 2-byte value. -/
def Obligations.MemReadIsLittleEndianAndBounded : Prop :=
  ∀ (d : Datapath) (bytes : ByteString), d.holds bytes → ∀ a : Nat,
    (∀ b, bytes[a]? = some b → ∃ v, memRead d a 1 = .ok v ∧ v.toNat = b.toNat) ∧
    (∀ lo hi, bytes[a]? = some lo → bytes[a + 1]? = some hi →
      ∃ v, memRead d a 2 = .ok v ∧ v.toNat = lo.toNat + 256 * hi.toNat) ∧
    (∀ n, n = 1 ∨ n = 2 → bytes.length < a + n → memRead d a n = .error (.truncated a))

/-! ### Header -/

/-- R100 to R104: the header validator. Fewer than 7 bytes: `NotOurs(SHORT)`; else a wrong magic prefix:
`NotOurs(MAGIC)`; else `batt` is byte 5 whatever its value, the cursor is 7, the Reading is empty but for the battery
and the summary is the battery segment; byte 6 does not matter. -/
def Obligations.HeaderValidatorAcceptsExactlyOurPayloads : Prop :=
  ∀ (s : State) (d : Datapath) (bytes : ByteString), s.decode = some d → d.holds bytes →
    (bytes.length < 7 → exec .hdr s = .next (failed s .notOursShort 0)) ∧
    (7 ≤ bytes.length → bytes.take 5 ≠ [0x85, 0x00, 0x02, 0x00, 0x3c] →
      exec .hdr s = .next (failed s .notOursMagic 0)) ∧
    (∀ b r rest, bytes = [0x85, 0x00, 0x02, 0x00, 0x3c] ++ b :: r :: rest →
      exec .hdr s = .next (going s { d with
        phase := .record, batt := b, cur := 7, tempV := false, lightV := false
        summary := [0x62, 0x61, 0x74, 0x74, 0x3a] ++ dec b.toNat ++ [0x25] }))

/-! ### Records -/

/-- R112: for every record with `A = 1`, whatever its type, a missing alert byte is `Truncated` at the cursor, before
anything else of the record; a present one is skipped unread and the rest is as without it. -/
def Obligations.AlertByteIsSkippedFirst : Prop :=
  ∀ (s : State) (d : Datapath) (i : Bool → Instr), s.decode = some d →
    ((∃ t, i = fun a => .nop a t) ∨ i = .motion ∨ i = .light ∨ i = .temp ∨ i = .pair ∨ i = .enc ∨
      (∃ t, i = fun a => .unknown a t)) →
    (d.len < d.cur + 1 → exec (i true) s = .next (failed s .failTruncated d.cur)) ∧
    (d.cur + 1 ≤ d.len → exec (i true) s = exec (i false) (going s { d with cur := d.cur + 1 }))

/-- R113: a NOP record (has-data clear) changes nothing but the cursor, past its alert byte if any, whatever its type;
but under `P_TERM_UNGATED` type 0x3f is run as ENC. -/
def Obligations.NopRecordIsSkippedWhateverItsType : Prop :=
  ∀ (s : State) (d : Datapath) (a : Bool) (t : BitVec 6), s.decode = some d → d.cur + a.toNat ≤ d.len →
    (¬ (s.params.termUngated = true ∧ t = 0x3f) →
      exec (.nop a t) s = .next (going s { d with cur := d.cur + a.toNat })) ∧
    (s.params.termUngated = true → t = 0x3f → exec (.nop a t) s = exec (.enc a) s)

/-- R115, R119: MOTION skips 2 payload bytes and PAIR skips 1, unread, and nothing else changes; with fewer left the
decode is `Truncated` where the payload begins. -/
def Obligations.MotionAndPairSkipTheirPayload : Prop :=
  decodeCtrl 0x41 = .motion false ∧ decodeCtrl 0xc1 = .motion true ∧
  decodeCtrl 0x6f = .pair false ∧ decodeCtrl 0xef = .pair true ∧
  ∀ (s : State) (d : Datapath) (a : Bool), s.decode = some d → d.cur + a.toNat ≤ d.len →
    (d.cur + a.toNat + 2 ≤ d.len →
      exec (.motion a) s = .next (going s { d with cur := d.cur + a.toNat + 2 })) ∧
    (d.len < d.cur + a.toNat + 2 →
      exec (.motion a) s = .next (failed s .failTruncated (d.cur + a.toNat))) ∧
    (d.cur + a.toNat + 1 ≤ d.len →
      exec (.pair a) s = .next (going s { d with cur := d.cur + a.toNat + 1 })) ∧
    (d.len < d.cur + a.toNat + 1 →
      exec (.pair a) s = .next (failed s .failTruncated (d.cur + a.toNat)))

/-- R118: TEMP reads 2 bytes, low byte first, sets `temp_v`, overwrites `temp_raw` and appends
`" temp:" ++ fmtTemp ++ "°C"` of the value read as s16; with fewer than 2 bytes it is `Truncated` where they begin. -/
def Obligations.TempReadsASignedHalfword : Prop :=
  decodeCtrl 0x43 = .temp false ∧ decodeCtrl 0xc3 = .temp true ∧
  ∀ (s : State) (d : Datapath) (a : Bool), s.decode = some d → d.cur + a.toNat ≤ d.len →
    (∀ lo hi : Byte, d.cur + a.toNat + 2 ≤ d.len → d.buf.read (d.cur + a.toNat) = some lo →
      d.buf.read (d.cur + a.toNat + 1) = some hi →
      exec (.temp a) s = .next (going s { d with
        cur := d.cur + a.toNat + 2, tempV := true, tempRaw := hi ++ lo
        summary := d.summary ++
          ([0x20, 0x74, 0x65, 0x6d, 0x70, 0x3a] ++ fmtTemp (hi ++ lo).toInt ++ [0xc2, 0xb0, 0x43]) })) ∧
    (d.len < d.cur + a.toNat + 2 →
      exec (.temp a) s = .next (failed s .failTruncated (d.cur + a.toNat)))

/-- R116: LIGHT. With `c` the offset after the control and alert bytes and `g` the descriptor there: length code 1
reads one value byte, 2 reads two (low byte first), 0 and 3 raise `BadLightLen` before any value byte is read, or
read one byte under `P_LIGHT_LEN_LEGACY`; the light registers take the descriptor's fields and the value, and the
light segment is appended. A missing descriptor is `Truncated(c)`, missing value bytes are `Truncated(c + 1)`. -/
def Obligations.LightReadsDescriptorThenValue : Prop :=
  decodeCtrl 0x42 = .light false ∧ decodeCtrl 0xc2 = .light true ∧
  ∀ (s : State) (d : Datapath) (a : Bool) (c : Nat), s.decode = some d → c = d.cur + a.toNat → c ≤ d.len →
    (d.len < c + 1 → exec (.light a) s = .next (failed s .failTruncated c)) ∧
    (∀ g : Byte, c + 1 ≤ d.len → d.buf.read c = some g →
      (∀ lo hi : Byte, lenCode g = 2 → c + 3 ≤ d.len → d.buf.read (c + 1) = some lo →
        d.buf.read (c + 2) = some hi →
        exec (.light a) s = .next (going s { d with
          phase := .record, desc := g, cur := c + 3, lightV := true, lightIr := isIR g, lightRes := resolution g
          lightRng := rangeCode g, lightVal := hi ++ lo
          summary := d.summary ++ lightSegment (isIR g) (resolution g) (rangeCode g) (hi ++ lo) })) ∧
      (∀ v : Byte, lenCode g = 1 ∨ (lenCode g ≠ 2 ∧ s.params.lightLenLegacy = true) → c + 2 ≤ d.len →
        d.buf.read (c + 1) = some v →
        exec (.light a) s = .next (going s { d with
          phase := .record, desc := g, cur := c + 2, lightV := true, lightIr := isIR g, lightRes := resolution g
          lightRng := rangeCode g, lightVal := v.zeroExtend 16
          summary := d.summary ++ lightSegment (isIR g) (resolution g) (rangeCode g) (v.zeroExtend 16) })) ∧
      (lenCode g = 0 ∨ lenCode g = 3 → s.params.lightLenLegacy = false →
        exec (.light a) s = .next (failed s .failLightLen (lenCode g).toNat)) ∧
      (lenCode g = 2 → d.len < c + 3 → exec (.light a) s = .next (failed s .failTruncated (c + 1))) ∧
      (lenCode g = 1 ∨ (lenCode g ≠ 2 ∧ s.params.lightLenLegacy = true) → d.len < c + 2 →
        exec (.light a) s = .next (failed s .failTruncated (c + 1))))

/-- R117: the four fields of a light descriptor, as numbers; bit 6 enters none of them. -/
def Obligations.LightDescriptorFieldsAreItsBits : Prop :=
  ∀ b : Byte,
    isIR b = decide (0x80 ≤ b.toNat) ∧ (resolution b).toNat = b.toNat / 16 % 4 ∧
    (rangeCode b).toNat = b.toNat / 4 % 4 ∧ (lenCode b).toNat = b.toNat % 4

/-- The rows a descriptor selects, with the descriptor already read. What they do is R116's and R76's: LIGHT8 takes one
value byte, LIGHT16 two, low byte first; the two bad lengths raise `BadLightLen`, or take one byte under
`P_LIGHT_LEN_LEGACY`. That they run on their own, after their descriptor, is the model's choice (log entry 4). -/
def Obligations.DescriptorRowsTakeTheirValue : Prop :=
  ∀ (s : State) (d : Datapath) (ir spare : Bool) (res rng : BitVec 2), s.decode = some d →
    (∀ v : Byte, d.cur + 1 ≤ d.len → d.buf.read d.cur = some v →
      let t := going s { d with
        phase := .record, cur := d.cur + 1, lightV := true, lightIr := ir, lightRes := res, lightRng := rng
        lightVal := v.zeroExtend 16, summary := d.summary ++ lightSegment ir res rng (v.zeroExtend 16) }
      exec (.light8 ir spare res rng) s = .next t ∧
      (s.params.lightLenLegacy = true → exec (.lightBadLen0 ir spare res rng) s = .next t ∧
        exec (.lightBadLen3 ir spare res rng) s = .next t)) ∧
    (∀ lo hi : Byte, d.cur + 2 ≤ d.len → d.buf.read d.cur = some lo → d.buf.read (d.cur + 1) = some hi →
      exec (.light16 ir spare res rng) s = .next (going s { d with
        phase := .record, cur := d.cur + 2, lightV := true, lightIr := ir, lightRes := res, lightRng := rng
        lightVal := hi ++ lo, summary := d.summary ++ lightSegment ir res rng (hi ++ lo) })) ∧
    (s.params.lightLenLegacy = false →
      exec (.lightBadLen0 ir spare res rng) s = .next (failed s .failLightLen 0) ∧
      exec (.lightBadLen3 ir spare res rng) s = .next (failed s .failLightLen 3)) ∧
    (d.len < d.cur + 1 → exec (.light8 ir spare res rng) s = .next (failed s .failTruncated d.cur) ∧
      (s.params.lightLenLegacy = true →
        exec (.lightBadLen0 ir spare res rng) s = .next (failed s .failTruncated d.cur) ∧
        exec (.lightBadLen3 ir spare res rng) s = .next (failed s .failTruncated d.cur))) ∧
    (d.len < d.cur + 2 → exec (.light16 ir spare res rng) s = .next (failed s .failTruncated d.cur))

/-- R120: ENC ends the decode `Ok` with the fields gathered so far, whatever bytes follow. -/
def Obligations.EncEndsTheDecodeOk : Prop :=
  decodeCtrl 0x7f = .enc false ∧ decodeCtrl 0xff = .enc true ∧
  ∀ (s : State) (d : Datapath) (a : Bool), s.decode = some d → d.cur + a.toNat ≤ d.len →
    ∃ t, exec (.enc a) s = .next t ∧ afterOk d s t

/-- R121: UNKNOWN raises `UnknownType(T)` with no payload byte read or skipped. -/
def Obligations.UnknownTypeFailsTheDecode : Prop :=
  ∀ (s : State) (d : Datapath) (a : Bool) (t : BitVec 6), s.decode = some d → d.cur + a.toNat ≤ d.len →
    exec (.unknown a t) s = .next (failed s .failUnknownType t.toNat)

/-- Outside an event the transient registers hold no value (R20, U3): the rows that work on them stop, by name. The
stop is the model's reading of U3 (log entry 4). -/
def Obligations.DecoderRowsStopOutsideAnEvent : Prop :=
  ∀ (s : State) (a : Bool) (t : BitVec 6) (ir spare : Bool) (res rng : BitVec 2), s.decode = none →
    ∀ i ∈ [Instr.hdr, .nop a t, .motion a, .light a, .light8 ir spare res rng, .light16 ir spare res rng,
      .lightBadLen0 ir spare res rng, .lightBadLen3 ir spare res rng, .temp a, .pair a, .enc a, .unknown a t],
      exec i s = .fault .noDecode

/-! ### The whole decode -/

/-- R123: every decode ends, in `Ok` or a raise: the bound on its iterations is never met. -/
def Obligations.EveryDecodeEnds : Prop :=
  ∀ (p : Params) (free : Unwritten) (t : Discovery) (d : Datapath),
    decodeRun p (latch free t) ≠ .cont d

/-- R20: a DISCOVER writes each transient register before it reads it: whatever they held, the decode ends the same. -/
def Obligations.DecodeIgnoresWhatTheRegistersHeld : Prop :=
  ∀ (p : Params) (u v : Unwritten) (t : Discovery),
    sameEnd (decodeRun p (latch u t)) (decodeRun p (latch v t))

/-- R11, R182: the atomic DISCOVER is exactly its micro-steps. Any latched payload, stepped record by record and at most
`len + 2` times, ends in the state that the whole decode settles to; and for an enabled DISCOVER whose triple is not
refused, the state that the run reaches from the latch, the triple off `Q`, is the one exec of DISCOVER answers. The
micro-step view is the model's (log entry 4), and so is the counter of free values (log entry 2). -/
def Obligations.DiscoverIsTheRunOfItsMicroSteps : Prop :=
  (∀ (s : State) (free : Unwritten) (t : Discovery),
    ∃ n, n ≤ t.payload.length + 2 ∧
      Host.Core.run Sys2Proof.core n (going s (latch free t)) =
        .next (settle (decodeRun s.params (latch free t)) s)) ∧
  (∀ (s : State) (t : Discovery) (rest : List Discovery),
    s.halted = false → s.decode = none → s.queue = t :: rest →
    t.id.length ≤ s.params.keyMax → t.payload.length ≤ s.params.maxPayload →
    ∃ n s', n ≤ t.payload.length + 2 ∧ exec .discover s = .next s' ∧
      Host.Core.run Sys2Proof.core n
        (going { s with queue := rest, freeCount := s.freeCount + 1 } (latch (Config.unwritten s.freeCount) t)) =
          .next s')

/-- R73, R83, R110, R124, R125, R144: a header followed by any records of the notation that go on, and then by nothing
or by an ENC record and any bytes at all, decodes `Ok`; the Reading holds the battery byte, the last temperature, the
last light record, and the summary lists the battery and every value record in stream order. -/
def Obligations.DecoderReadsBackTheNotation : Prop :=
  ∀ (p : Params) (free : Unwritten) (id : ByteString) (rssi : Int) (b r : Byte) (recs : List Rec) (tail : ByteString),
    (∀ x ∈ recs, goesOn p x) →
    (tail = [] ∨ ∃ alert junk, tail = (Rec.bytes ⟨alert, .enc⟩) ++ junk) →
    ∃ d, decodeRun p (latch free ⟨id, headerBytes b r ++ recs.flatMap Rec.bytes ++ tail, rssi⟩) = .finish d ∧
      d.id = id ∧
      d.reading = { battery := b, temperature := lastTemp recs, light := lastLight recs
                    summary := battSegment b ++ recs.flatMap segment }

/-! ### Events -/

/-- R182: an enabled DISCOVER takes the head triple off `Q` and completes: no decode is left in progress, exactly one
status record comes last, and the flags, the parameters and the rest of `Q` are as before. -/
def Obligations.DiscoverCompletesWithOneStatus : Prop :=
  ∀ (s : State) (t : Discovery) (rest : List Discovery),
    s.halted = false → s.decode = none → s.queue = t :: rest →
    ∃ s' l code info, exec .discover s = .next s' ∧ s'.queue = rest ∧ s'.decode = none ∧
      s'.out = s.out ++ l ++ [.status 0 code info] ∧ (∀ o ∈ l, isStatus o = false) ∧
      s'.params = s.params ∧ s'.halted = s.halted ∧ s'.tickPending = s.tickPending ∧
      s'.shutdownPending = s.shutdownPending ∧ s'.result = s.result ∧ s'.offers = s.offers ∧ s'.turns = s.turns

/-- R183, R184: an identifier or a payload longer than the hardware holds is refused, the identifier first; nothing is
decoded and only the status record is left. -/
def Obligations.OversizeDiscoveriesAreRefused : Prop :=
  ∀ (s : State) (t : Discovery) (rest : List Discovery),
    s.halted = false → s.decode = none → s.queue = t :: rest →
    (s.params.keyMax < t.id.length →
      exec .discover s = .next { s with queue := rest, out := s.out ++ [.status 0 .refusedKey t.id.length] }) ∧
    (t.id.length ≤ s.params.keyMax → s.params.maxPayload < t.payload.length →
      exec .discover s =
        .next { s with queue := rest, out := s.out ++ [.status 0 .refusedPayload t.payload.length] })

/-- R59, R209: a discovery whose decode raises leaves the register file as it was and emits nothing but its status
record, `NotOurs` included (R202). -/
def Obligations.FailedDiscoveryLeavesOnlyAStatus : Prop :=
  ∀ (s : State) (t : Discovery) (rest : List Discovery) (c : Cause),
    s.halted = false → s.decode = none → s.queue = t :: rest →
    t.id.length ≤ s.params.keyMax → t.payload.length ≤ s.params.maxPayload →
    decodeRun s.params (latch (Config.unwritten s.freeCount) t) = .raised c →
    exec .discover s = .next { s with
      queue := rest, freeCount := s.freeCount + 1, out := s.out ++ [.status 0 c.code c.info] }

/-- R182, R185, R186: a discovery whose decode ends `Ok` emits the battery gauge, then the temperature gauge if there is
a temperature, then what APPLY emits, then APPLY's code; the register file is as APPLY leaves it. -/
def Obligations.OkDiscoveryEmitsGaugesThenApplies : Prop :=
  ∀ (s : State) (t : Discovery) (rest : List Discovery) (d : Datapath),
    s.halted = false → s.decode = none → s.queue = t :: rest →
    t.id.length ≤ s.params.keyMax → t.payload.length ≤ s.params.maxPayload →
    decodeRun s.params (latch (Config.unwritten s.freeCount) t) = .finish d →
    ∃ s', exec .discover s = .next s' ∧
      afterOk d { s with queue := rest, freeCount := s.freeCount + 1 } s' ∧ d.id = t.id

/-- R166, R187: TICK clears `tick_pending`, emits one CHANGED line for each valid slot with `chg = 1` in slot order,
clears exactly those flags, and ends with `DRAIN_DONE(n)`. -/
def Obligations.TickReportsAndClearsTheChangedSlots : Prop :=
  ∀ s : State, s.halted = false → s.decode = none → s.tickPending = true →
    exec .tick s = .next { s with
      tickPending := false
      rf := s.rf.map (fun r => if r.valid && r.chg then { r with chg := false } else r)
      out := s.out
        ++ (s.rf.filter (fun r => r.valid && r.chg)).map (fun r => .log .changed (r.key.take r.klen) (r.sum.take r.slen))
        ++ [.status 1 .drainDone (s.rf.filter (fun r => r.valid && r.chg)).length] }

/-- R189: SHUTDOWN halts, empties `Q`, clears `tick_pending`, keeps the register file, and reports how many
discoveries it discarded. -/
def Obligations.ShutdownHaltsAndDiscards : Prop :=
  ∀ s : State, s.halted = false → s.decode = none → s.shutdownPending = true →
    exec .shutdown s = .next { s with
      halted := true, queue := [], tickPending := false, out := s.out ++ [.status 2 .halted s.queue.length] }

/-- R180: an event that is not enabled is not taken. That exec of it then waits, changing nothing, is the model's
reading (log entry 19). -/
def Obligations.EventsNotEnabledWait : Prop :=
  ∀ (s : State) (e : Event), canTake e s = false → exec e.instr s = .next s

/-- R190: while halted, every step but a reset takes no event, emits nothing and keeps the register file, the flags
and `Q`. -/
def Obligations.HaltedBlockDoesNothingButReset : Prop :=
  ∀ s : State, s.halted = true → s.decode = none → s.turns.head? ≠ some .assertReset →
    ∃ t, step s = .next t ∧ t.out = s.out ∧ t.rf = s.rf ∧ t.halted = true ∧ t.queue = s.queue ∧
      t.tickPending = s.tickPending ∧ t.shutdownPending = s.shutdownPending ∧ t.decode = none

/-- R192: an event taken emits exactly one status record, its last record, with its own event id (R82). -/
def Obligations.EachEventEmitsExactlyOneStatus : Prop :=
  ∀ (s : State) (e : Event), canTake e s = true →
    ∃ t l code info, exec e.instr s = .next t ∧ t.out = s.out ++ l ++ [.status e.id code info] ∧
      ∀ o ∈ l, isStatus o = false

/-! ### Inputs -/

/-- R181: the producer's next offer is appended to `Q` when there is room, held when `Q` is full, and taken and
discarded while halted. The list of offers is the model's (log entry 7). -/
def Obligations.OffersAreTakenHeldOrDiscarded : Prop :=
  ∀ (s : State) (o : Discovery) (os : List Discovery) (rest : List Turn),
    s.decode = none → s.turns = .offer :: rest → s.offers = o :: os →
    (s.halted = false → s.queue.length < s.params.queueDepth →
      step s = .next { s with turns := rest, offers := os, queue := s.queue ++ [o] }) ∧
    (s.halted = false → s.params.queueDepth ≤ s.queue.length → step s = .next { s with turns := rest }) ∧
    (s.halted = true → step s = .next { s with turns := rest, offers := os })

/-- R28, R29, R188, R190: an assertion of the tick or the shutdown input sets its flag, has no further effect when the
flag is already 1, and is ignored while halted. -/
def Obligations.AssertionsSetTheirFlagUnlessHalted : Prop :=
  ∀ (s : State) (rest : List Turn), s.decode = none →
    (s.turns = .assertTick :: rest →
      step s = .next { s with turns := rest, tickPending := s.tickPending || !s.halted }) ∧
    (s.turns = .assertShutdown :: rest →
      step s = .next { s with turns := rest, shutdownPending := s.shutdownPending || !s.halted })

/-! ### Register file -/

/-- R160: LOOKUP answers HIT(i) exactly for the valid slot that holds the key, byte for byte, and writes no state of
the block; the answer goes to the model's return field (log entry 8). -/
def Obligations.LookupHitsExactlyTheSlotWithTheKey : Prop :=
  ∀ (s : State) (k : ByteString), RfWf s.params s.rf →
    ∃ h, exec (.lookup k) s = .next { s with result := some (.lookup h) } ∧
      ∀ i, h = some i ↔ ∃ r, s.rf[i]? = some r ∧ r.valid = true ∧ r.keyBytes = k

/-- R161, R165: APPLY of an unknown id writes the free slot of lowest index, with `chg = 0`, emits one NEW line and
gives `OK_NEW`; every other slot is as before. -/
def Obligations.ApplyOfAnUnknownIdCreatesAnEntry : Prop :=
  ∀ (s : State) (id sum : ByteString) (i : Nat) (r : Slot),
    id.length ≤ s.params.keyMax → sum.length ≤ s.params.summaryMax → RfWf s.params s.rf →
    (∀ x ∈ s.rf, x.valid = true → x.keyBytes ≠ id) →
    s.rf[i]? = some r → r.valid = false → (∀ j x, j < i → s.rf[j]? = some x → x.valid = true) →
    ∃ r', r'.valid = true ∧ r'.keyBytes = id ∧ r'.klen = id.length ∧ r'.sumBytes = sum ∧ r'.slen = sum.length ∧
      r'.chg = false ∧
      exec (.apply id sum) s = .next { s with
        rf := s.rf.set i r', out := s.out ++ [.log .new id sum], result := some (.apply .okNew) }

/-- R162: APPLY with a summary that differs from the stored one replaces it and sets `chg`; the key is kept, nothing is
emitted, the code is `OK_CHANGED`. -/
def Obligations.ApplyOfADifferentSummaryMarksTheEntry : Prop :=
  ∀ (s : State) (id sum : ByteString) (i : Nat) (r : Slot),
    id.length ≤ s.params.keyMax → sum.length ≤ s.params.summaryMax → RfWf s.params s.rf →
    s.rf[i]? = some r → r.valid = true → r.keyBytes = id → r.sumBytes ≠ sum →
    ∃ r', r'.valid = true ∧ r'.key = r.key ∧ r'.klen = r.klen ∧ r'.sumBytes = sum ∧ r'.slen = sum.length ∧
      r'.chg = true ∧
      exec (.apply id sum) s = .next { s with rf := s.rf.set i r', result := some (.apply .okChanged) }

/-- R163: APPLY with the stored summary writes nothing and emits nothing; the code is `OK_UNCHANGED`. -/
def Obligations.ApplyOfTheStoredSummaryWritesNothing : Prop :=
  ∀ (s : State) (id sum : ByteString) (i : Nat) (r : Slot),
    id.length ≤ s.params.keyMax → sum.length ≤ s.params.summaryMax → RfWf s.params s.rf →
    s.rf[i]? = some r → r.valid = true → r.keyBytes = id → r.sumBytes = sum →
    exec (.apply id sum) s = .next { s with result := some (.apply .okUnchanged) }

/-- R164: APPLY of an unknown id with every slot valid writes nothing and emits nothing; the code is `TABLE_FULL`. -/
def Obligations.ApplyToAFullTableWritesNothing : Prop :=
  ∀ (s : State) (id sum : ByteString),
    id.length ≤ s.params.keyMax → sum.length ≤ s.params.summaryMax → RfWf s.params s.rf →
    (∀ x ∈ s.rf, x.valid = true ∧ x.keyBytes ≠ id) →
    exec (.apply id sum) s = .next { s with result := some (.apply .tableFull) }

/-- APPLY with operands the slot storage cannot hold stops by name. The block never issues it (R183, R146); the stop is
the model's choice (log entry 9). -/
def Obligations.ApplyWithOversizeOperandsStops : Prop :=
  ∀ (s : State) (id sum : ByteString), s.params.keyMax < id.length ∨ s.params.summaryMax < sum.length →
    exec (.apply id sum) s = .fault .operandRange

/-- R163 (idempotence): applying the same summary twice, unless the table was full, changes nothing the second time. -/
def Obligations.ApplyingTwiceIsUnchanged : Prop :=
  ∀ (s t : State) (id sum : ByteString), RfWf s.params s.rf → exec (.apply id sum) s = .next t →
    t.result ≠ some (.apply .tableFull) →
    exec (.apply id sum) t = .next { t with result := some (.apply .okUnchanged) }

/-- R166: DRAIN emits one CHANGED line for each valid slot with `chg = 1`, in ascending slot order, clears exactly
those flags and gives their number; a second DRAIN reports nothing and changes nothing of the block. -/
def Obligations.DrainReportsOnceInSlotOrder : Prop :=
  ∀ s : State, ∃ t,
    exec .drain s = .next t ∧
    t = { s with
      rf := s.rf.map (fun r => if r.valid && r.chg then { r with chg := false } else r)
      out := s.out
        ++ (s.rf.filter (fun r => r.valid && r.chg)).map (fun r => .log .changed (r.key.take r.klen) (r.sum.take r.slen))
      result := some (.drain (s.rf.filter (fun r => r.valid && r.chg)).length) } ∧
    exec .drain t = .next { t with result := some (.drain 0) }

/-- R170 (b): a change and a change back between two drains is still reported, with the summary last stored. -/
def Obligations.ChangeBackIsStillReported : Prop :=
  ∀ (s t u v : State) (id a b : ByteString) (i : Nat) (r : Slot), RfWf s.params s.rf →
    s.rf[i]? = some r → r.valid = true → r.keyBytes = id → r.sumBytes = a → a ≠ b →
    exec (.apply id b) s = .next t → exec (.apply id a) t = .next u → exec .drain u = .next v →
    ∃ l l', v.out = s.out ++ l ++ [.log .changed id a] ++ l'

/-! ### Whole-machine rules -/

/-- R169: no step but a reset invalidates a slot or rewrites a key. -/
def Obligations.EntriesAreNeverRemovedOrRenamed : Prop :=
  ∀ (s t : State) (i : Nat) (r : Slot), noResetNext s → step s = .next t → s.rf[i]? = some r → r.valid = true →
    ∃ r', t.rf[i]? = some r' ∧ r'.valid = true ∧ r'.klen = r.klen ∧ r'.key = r.key

/-- R168: in a step that is no reset, the changed flag of an entry goes to 1 only with the `OK_CHANGED` of a DISCOVER, and
to 0 only with the `DRAIN_DONE` of a TICK. -/
def Obligations.ChangedFlagsHaveTheirTwoWriters : Prop :=
  ∀ (s t : State) (i : Nat) (r r' : Slot), noResetNext s → step s = .next t →
    s.rf[i]? = some r → t.rf[i]? = some r' → r.valid = true →
    ∃ l, t.out = s.out ++ l ∧
      (r.chg = false → r'.chg = true → .status 0 .okChanged 0 ∈ l) ∧
      (r.chg = true → r'.chg = false → ∃ n, .status 1 .drainDone n ∈ l)

/-- R186: a NEW line comes only for a device that had no entry, which then has one with `chg = 0`; so, with R169, each
device gets at most one NEW line between two resets. -/
def Obligations.NewLinesAreOnlyForUnknownDevices : Prop :=
  ∀ (s t : State) (l : List Output) (id sum : ByteString), s.Inv → step s = .next t → t.out = s.out ++ l →
    .log .new id sum ∈ l →
    (∀ r ∈ s.rf, r.valid = true → r.keyBytes ≠ id) ∧
    (∃ r ∈ t.rf, r.valid = true ∧ r.keyBytes = id ∧ r.sumBytes = sum ∧ r.chg = false)
end

