-- ==== Sys2Proof/Laws/State.lean ====
section
/-! SUPPORT. One lemma per field per named update of State, so that no proof unfolds an update. -/

namespace Sys2Proof.Machine

@[simp] theorem State.emit_params (o : Output) (s : State) : (s.emit o).params = s.params := rfl
@[simp] theorem State.emit_rf (o : Output) (s : State) : (s.emit o).rf = s.rf := rfl
@[simp] theorem State.emit_halted (o : Output) (s : State) : (s.emit o).halted = s.halted := rfl
@[simp] theorem State.emit_tickPending (o : Output) (s : State) : (s.emit o).tickPending = s.tickPending := rfl
@[simp] theorem State.emit_shutdownPending (o : Output) (s : State) : (s.emit o).shutdownPending = s.shutdownPending := rfl
@[simp] theorem State.emit_queue (o : Output) (s : State) : (s.emit o).queue = s.queue := rfl
@[simp] theorem State.emit_decode (o : Output) (s : State) : (s.emit o).decode = s.decode := rfl
@[simp] theorem State.emit_result (o : Output) (s : State) : (s.emit o).result = s.result := rfl
@[simp] theorem State.emit_out (o : Output) (s : State) : (s.emit o).out = s.out ++ [o] := rfl
@[simp] theorem State.emit_offers (o : Output) (s : State) : (s.emit o).offers = s.offers := rfl
@[simp] theorem State.emit_turns (o : Output) (s : State) : (s.emit o).turns = s.turns := rfl
@[simp] theorem State.emit_freeCount (o : Output) (s : State) : (s.emit o).freeCount = s.freeCount := rfl

@[simp] theorem State.status_params (e : BitVec 2) (c : StatusCode) (n : Nat) (s : State) : (s.status e c n).params = s.params := rfl
@[simp] theorem State.status_rf (e : BitVec 2) (c : StatusCode) (n : Nat) (s : State) : (s.status e c n).rf = s.rf := rfl
@[simp] theorem State.status_halted (e : BitVec 2) (c : StatusCode) (n : Nat) (s : State) : (s.status e c n).halted = s.halted := rfl
@[simp] theorem State.status_tickPending (e : BitVec 2) (c : StatusCode) (n : Nat) (s : State) : (s.status e c n).tickPending = s.tickPending := rfl
@[simp] theorem State.status_shutdownPending (e : BitVec 2) (c : StatusCode) (n : Nat) (s : State) : (s.status e c n).shutdownPending = s.shutdownPending := rfl
@[simp] theorem State.status_queue (e : BitVec 2) (c : StatusCode) (n : Nat) (s : State) : (s.status e c n).queue = s.queue := rfl
@[simp] theorem State.status_decode (e : BitVec 2) (c : StatusCode) (n : Nat) (s : State) : (s.status e c n).decode = s.decode := rfl
@[simp] theorem State.status_result (e : BitVec 2) (c : StatusCode) (n : Nat) (s : State) : (s.status e c n).result = s.result := rfl
@[simp] theorem State.status_out (e : BitVec 2) (c : StatusCode) (n : Nat) (s : State) : (s.status e c n).out = s.out ++ [Output.status e c n] := rfl
@[simp] theorem State.status_offers (e : BitVec 2) (c : StatusCode) (n : Nat) (s : State) : (s.status e c n).offers = s.offers := rfl
@[simp] theorem State.status_turns (e : BitVec 2) (c : StatusCode) (n : Nat) (s : State) : (s.status e c n).turns = s.turns := rfl
@[simp] theorem State.status_freeCount (e : BitVec 2) (c : StatusCode) (n : Nat) (s : State) : (s.status e c n).freeCount = s.freeCount := rfl

@[simp] theorem State.endDecode_params  (s : State) : (s.endDecode).params = s.params := rfl
@[simp] theorem State.endDecode_rf  (s : State) : (s.endDecode).rf = s.rf := rfl
@[simp] theorem State.endDecode_halted  (s : State) : (s.endDecode).halted = s.halted := rfl
@[simp] theorem State.endDecode_tickPending  (s : State) : (s.endDecode).tickPending = s.tickPending := rfl
@[simp] theorem State.endDecode_shutdownPending  (s : State) : (s.endDecode).shutdownPending = s.shutdownPending := rfl
@[simp] theorem State.endDecode_queue  (s : State) : (s.endDecode).queue = s.queue := rfl
@[simp] theorem State.endDecode_decode  (s : State) : (s.endDecode).decode = none := rfl
@[simp] theorem State.endDecode_result  (s : State) : (s.endDecode).result = s.result := rfl
@[simp] theorem State.endDecode_out  (s : State) : (s.endDecode).out = s.out := rfl
@[simp] theorem State.endDecode_offers  (s : State) : (s.endDecode).offers = s.offers := rfl
@[simp] theorem State.endDecode_turns  (s : State) : (s.endDecode).turns = s.turns := rfl
@[simp] theorem State.endDecode_freeCount  (s : State) : (s.endDecode).freeCount = s.freeCount := rfl

@[simp] theorem State.raiseDecode_params (c : Cause) (s : State) : (raiseDecode c s).params = s.params := rfl
@[simp] theorem State.raiseDecode_rf (c : Cause) (s : State) : (raiseDecode c s).rf = s.rf := rfl
@[simp] theorem State.raiseDecode_halted (c : Cause) (s : State) : (raiseDecode c s).halted = s.halted := rfl
@[simp] theorem State.raiseDecode_tickPending (c : Cause) (s : State) : (raiseDecode c s).tickPending = s.tickPending := rfl
@[simp] theorem State.raiseDecode_shutdownPending (c : Cause) (s : State) : (raiseDecode c s).shutdownPending = s.shutdownPending := rfl
@[simp] theorem State.raiseDecode_queue (c : Cause) (s : State) : (raiseDecode c s).queue = s.queue := rfl
@[simp] theorem State.raiseDecode_decode (c : Cause) (s : State) : (raiseDecode c s).decode = none := rfl
@[simp] theorem State.raiseDecode_result (c : Cause) (s : State) : (raiseDecode c s).result = s.result := rfl
@[simp] theorem State.raiseDecode_out (c : Cause) (s : State) : (raiseDecode c s).out = s.out ++ [Output.status 0 c.code c.info] := rfl
@[simp] theorem State.raiseDecode_offers (c : Cause) (s : State) : (raiseDecode c s).offers = s.offers := rfl
@[simp] theorem State.raiseDecode_turns (c : Cause) (s : State) : (raiseDecode c s).turns = s.turns := rfl
@[simp] theorem State.raiseDecode_freeCount (c : Cause) (s : State) : (raiseDecode c s).freeCount = s.freeCount := rfl

@[simp] theorem State.drained_params  (s : State) : ((drainEntries s).1).params = s.params := rfl
@[simp] theorem State.drained_rf  (s : State) : ((drainEntries s).1).rf = s.rf.map (fun r => if r.reported then r.clearChg else r) := rfl
@[simp] theorem State.drained_halted  (s : State) : ((drainEntries s).1).halted = s.halted := rfl
@[simp] theorem State.drained_tickPending  (s : State) : ((drainEntries s).1).tickPending = s.tickPending := rfl
@[simp] theorem State.drained_shutdownPending  (s : State) : ((drainEntries s).1).shutdownPending = s.shutdownPending := rfl
@[simp] theorem State.drained_queue  (s : State) : ((drainEntries s).1).queue = s.queue := rfl
@[simp] theorem State.drained_decode  (s : State) : ((drainEntries s).1).decode = s.decode := rfl
@[simp] theorem State.drained_result  (s : State) : ((drainEntries s).1).result = s.result := rfl
@[simp] theorem State.drained_out  (s : State) : ((drainEntries s).1).out = s.out ++ (s.rf.filter Slot.reported).map Slot.changedLine := rfl
@[simp] theorem State.drained_offers  (s : State) : ((drainEntries s).1).offers = s.offers := rfl
@[simp] theorem State.drained_turns  (s : State) : ((drainEntries s).1).turns = s.turns := rfl
@[simp] theorem State.drained_freeCount  (s : State) : ((drainEntries s).1).freeCount = s.freeCount := rfl

@[simp] theorem State.applied_params (id sum : ByteString) (s : State) : (applyEntry id sum s).1.params = s.params := by
  unfold applyEntry; split
  · split <;> rfl
  · split <;> rfl

@[simp] theorem State.applied_halted (id sum : ByteString) (s : State) : (applyEntry id sum s).1.halted = s.halted := by
  unfold applyEntry; split
  · split <;> rfl
  · split <;> rfl

@[simp] theorem State.applied_tickPending (id sum : ByteString) (s : State) : (applyEntry id sum s).1.tickPending = s.tickPending := by
  unfold applyEntry; split
  · split <;> rfl
  · split <;> rfl

@[simp] theorem State.applied_shutdownPending (id sum : ByteString) (s : State) : (applyEntry id sum s).1.shutdownPending = s.shutdownPending := by
  unfold applyEntry; split
  · split <;> rfl
  · split <;> rfl

@[simp] theorem State.applied_queue (id sum : ByteString) (s : State) : (applyEntry id sum s).1.queue = s.queue := by
  unfold applyEntry; split
  · split <;> rfl
  · split <;> rfl

@[simp] theorem State.applied_decode (id sum : ByteString) (s : State) : (applyEntry id sum s).1.decode = s.decode := by
  unfold applyEntry; split
  · split <;> rfl
  · split <;> rfl

@[simp] theorem State.applied_result (id sum : ByteString) (s : State) : (applyEntry id sum s).1.result = s.result := by
  unfold applyEntry; split
  · split <;> rfl
  · split <;> rfl

@[simp] theorem State.applied_offers (id sum : ByteString) (s : State) : (applyEntry id sum s).1.offers = s.offers := by
  unfold applyEntry; split
  · split <;> rfl
  · split <;> rfl

@[simp] theorem State.applied_turns (id sum : ByteString) (s : State) : (applyEntry id sum s).1.turns = s.turns := by
  unfold applyEntry; split
  · split <;> rfl
  · split <;> rfl

@[simp] theorem State.applied_freeCount (id sum : ByteString) (s : State) : (applyEntry id sum s).1.freeCount = s.freeCount := by
  unfold applyEntry; split
  · split <;> rfl
  · split <;> rfl

/-! ### Slots -/

@[simp] theorem Slot.create_valid (id sum : ByteString) (r : Slot) : (Slot.create id sum r).valid = true := rfl
@[simp] theorem Slot.create_klen (id sum : ByteString) (r : Slot) : (Slot.create id sum r).klen = id.length := rfl
@[simp] theorem Slot.create_key (id sum : ByteString) (r : Slot) : (Slot.create id sum r).key = overwrite id r.key := rfl
@[simp] theorem Slot.create_slen (id sum : ByteString) (r : Slot) : (Slot.create id sum r).slen = sum.length := rfl
@[simp] theorem Slot.create_sum (id sum : ByteString) (r : Slot) : (Slot.create id sum r).sum = overwrite sum r.sum := rfl
@[simp] theorem Slot.create_chg (id sum : ByteString) (r : Slot) : (Slot.create id sum r).chg = false := rfl

@[simp] theorem Slot.replace_valid (sum : ByteString) (r : Slot) : (Slot.replace sum r).valid = r.valid := rfl
@[simp] theorem Slot.replace_klen (sum : ByteString) (r : Slot) : (Slot.replace sum r).klen = r.klen := rfl
@[simp] theorem Slot.replace_key (sum : ByteString) (r : Slot) : (Slot.replace sum r).key = r.key := rfl
@[simp] theorem Slot.replace_slen (sum : ByteString) (r : Slot) : (Slot.replace sum r).slen = sum.length := rfl
@[simp] theorem Slot.replace_sum (sum : ByteString) (r : Slot) : (Slot.replace sum r).sum = overwrite sum r.sum := rfl
@[simp] theorem Slot.replace_chg (sum : ByteString) (r : Slot) : (Slot.replace sum r).chg = true := rfl

@[simp] theorem Slot.clearChg_valid  (r : Slot) : (r.clearChg).valid = r.valid := rfl
@[simp] theorem Slot.clearChg_klen  (r : Slot) : (r.clearChg).klen = r.klen := rfl
@[simp] theorem Slot.clearChg_key  (r : Slot) : (r.clearChg).key = r.key := rfl
@[simp] theorem Slot.clearChg_slen  (r : Slot) : (r.clearChg).slen = r.slen := rfl
@[simp] theorem Slot.clearChg_sum  (r : Slot) : (r.clearChg).sum = r.sum := rfl
@[simp] theorem Slot.clearChg_chg  (r : Slot) : (r.clearChg).chg = false := rfl

end Sys2Proof.Machine
end

