-- ==== Sys2Proof/Laws/Memory.lean ====
section
/-! SUPPORT. The payload buffer: what a latch lists, what a read and a skip answer, and that the canonical form
holds. -/

namespace Sys2Proof.Machine

/-! ### Cells -/

theorem Memory.ofBytes_length (base : Nat) (bs : ByteString) : (Memory.ofBytes base bs).length = bs.length := by
  induction bs generalizing base with
  | nil => rfl
  | cons b rest ih => simp [Memory.ofBytes, ih]

theorem Memory.ofBytes_values (base : Nat) (bs : ByteString) : (Memory.ofBytes base bs).map Prod.snd = bs := by
  induction bs generalizing base with
  | nil => rfl
  | cons b rest ih => simp [Memory.ofBytes, ih]

/-- A latched payload reads back byte for byte, and no other address exists. -/
theorem Memory.read_ofBytes (base : Nat) (bs : ByteString) (a : Nat) :
    (Memory.ofBytes base bs).read a = if base ≤ a then bs[a - base]? else none := by
  induction bs generalizing base with
  | nil => simp [Memory.ofBytes, Memory.read]
  | cons b rest ih =>
    simp only [Memory.ofBytes, Memory.read, ih]
    by_cases h : base = a
    · subst h; simp
    · rw [if_neg h]
      by_cases h2 : base ≤ a
      · have : a - base = (a - (base + 1)) + 1 := by omega
        rw [if_pos (by omega), if_pos h2, this, List.getElem?_cons_succ]
      · rw [if_neg (by omega), if_neg h2]

@[simp] theorem Memory.read_latched (bs : ByteString) (a : Nat) : (Memory.ofBytes 0 bs).read a = bs[a]? := by
  simp [Memory.read_ofBytes]

/-- The latch lists its cells in the canonical form. -/
theorem Memory.ofBytes_wf (base : Nat) (bs : ByteString) : (Memory.ofBytes base bs).wf = true := by
  induction bs generalizing base with
  | nil => rfl
  | cons b rest ih =>
    cases rest with
    | nil => rfl
    | cons c rest =>
      have := ih (base + 1)
      simp only [Memory.ofBytes, Memory.wf] at this ⊢
      simp [this]

/-! ### Reads and skips -/

theorem leBytes_one (m : Memory) (a : Nat) : leBytes m a 1 = (m.read a).map (fun b => b.zeroExtend 16) := by
  cases h : m.read a <;> simp [leBytes, h]

/-- The sum of R51 for two bytes is their concatenation, the later byte above. -/
theorem or_shift_eq_append (lo hi : Byte) : lo.zeroExtend 16 ||| (hi.zeroExtend 16 <<< 8) = hi ++ lo := by
  apply BitVec.eq_of_getLsbD_eq
  intro i hi'
  simp only [BitVec.getLsbD_or, BitVec.getLsbD_shiftLeft, BitVec.getLsbD_append, BitVec.truncate_eq_setWidth,
    BitVec.getLsbD_setWidth]
  by_cases h : i < 8
  · simp [h]; omega
  · have h1 : lo.getLsbD i = false := BitVec.getLsbD_of_ge _ _ (by omega)
    have h2 : i - 8 < 16 := by omega
    simp [h, h1, h2, hi']

theorem leBytes_two (m : Memory) (a : Nat) (lo hi : Byte) (hlo : m.read a = some lo) (hhi : m.read (a + 1) = some hi) :
    leBytes m a 2 = some (hi ++ lo) := by
  simp [leBytes, hlo, hhi, ← or_shift_eq_append]

/-- A one-byte read within the buffer (R51). -/
theorem memRead_one {d : Datapath} {a : Nat} {b : Byte} (hl : a + 1 ≤ d.len) (hb : d.buf.read a = some b) :
    memRead d a 1 = .ok (b.zeroExtend 16) := by
  simp [memRead, leBytes_one, hb, Nat.not_lt.mpr hl]

/-- A two-byte read within the buffer, low byte first (R52). -/
theorem memRead_two {d : Datapath} {a : Nat} {lo hi : Byte} (hl : a + 2 ≤ d.len) (hlo : d.buf.read a = some lo)
    (hhi : d.buf.read (a + 1) = some hi) : memRead d a 2 = .ok (hi ++ lo) := by
  simp [memRead, leBytes_two _ _ _ _ hlo hhi, Nat.not_lt.mpr hl]

/-- A read past `len` raises at its own offset (R51). -/
theorem memRead_past {d : Datapath} {a n : Nat} (h : d.len < a + n) : memRead d a n = .error (.truncated a) := by
  simp [memRead, h]

/-- A read only ever raises `Truncated` at its own offset. -/
theorem memRead_error {d : Datapath} {a n : Nat} {c : Cause} (h : memRead d a n = .error c) : c = .truncated a := by
  unfold memRead at h
  split at h
  · injection h with h; exact h.symm
  · split at h
    · cases h
    · injection h with h; exact h.symm

/-- A read that answers stays within the buffer. -/
theorem memRead_ok {d : Datapath} {a n : Nat} {v : Half} (h : memRead d a n = .ok v) : a + n ≤ d.len := by
  unfold memRead at h
  split at h
  · cases h
  · omega

theorem skip_within {d : Datapath} {n : Nat} (h : d.cur + n ≤ d.len) :
    skip n d = .ok { d with cur := d.cur + n } := by
  simp [skip, Nat.not_lt.mpr h]

theorem skip_past {d : Datapath} {n : Nat} (h : d.len < d.cur + n) : skip n d = .error (.truncated d.cur) := by
  simp [skip, h]

theorem skip_ok {d d' : Datapath} {n : Nat} (h : skip n d = .ok d') :
    d.cur + n ≤ d.len ∧ d' = { d with cur := d.cur + n } := by
  unfold skip at h
  split at h
  · cases h
  · injection h with h; exact ⟨by omega, h.symm⟩

theorem fetchCtrl_within {d : Datapath} {b : Byte} (hl : d.cur + 1 ≤ d.len) (hb : d.buf.read d.cur = some b) :
    fetchCtrl d = .ok { d with ctrl := b, cur := d.cur + 1 } := by
  simp [fetchCtrl, memRead_one hl hb, BitVec.truncate_eq_setWidth]

theorem takeDesc_within {d : Datapath} {b : Byte} (hl : d.cur + 1 ≤ d.len) (hb : d.buf.read d.cur = some b) :
    takeDesc d = .ok { d with desc := b, cur := d.cur + 1 } := by
  simp [takeDesc, memRead_one hl hb, BitVec.truncate_eq_setWidth]

theorem takeValue_ok {d d' : Datapath} {n : Nat} {v : Half} (h : takeValue n d = .ok (v, d')) :
    d.cur + n ≤ d.len ∧ memRead d d.cur n = .ok v ∧ d' = { d with cur := d.cur + n } := by
  unfold takeValue at h
  split at h
  · cases h
  · rename_i w hw
    simp only [Except.ok.injEq, Prod.mk.injEq] at h
    obtain ⟨rfl, rfl⟩ := h
    exact ⟨memRead_ok hw, hw, rfl⟩

theorem alertSkip_ok {a : Bool} {d d' : Datapath} (h : alertSkip a d = .ok d') :
    d' = { d with cur := d.cur + a.toNat } ∧ (a = true → d.cur + 1 ≤ d.len) := by
  cases a with
  | false => simp only [alertSkip, Bool.false_eq_true, if_false] at h; injection h with h; simp [h]
  | true => have := skip_ok (by simpa [alertSkip] using h); simp [this.2, this.1]

/-- The alert byte, when there is room for it, moves the cursor past itself (R112). -/
theorem withAlert_within {a : Bool} {d : Datapath} (f : Datapath → Micro) (h : d.cur + a.toNat ≤ d.len) :
    withAlert a f d = f { d with cur := d.cur + a.toNat } := by
  cases a with
  | false => rfl
  | true => simp [withAlert, alertSkip, skip_within (n := 1) (d := d) h]

/-- A missing alert byte raises before anything else of the record (R112). -/
theorem withAlert_past {d : Datapath} (f : Datapath → Micro) (h : d.len < d.cur + 1) :
    withAlert true f d = .raised (.truncated d.cur) := by
  simp [withAlert, alertSkip, skip_past h]

end Sys2Proof.Machine
end

