-- ==== Sys2Proof/Laws/Exec.lean ====
section
/-! SUPPORT. What exec is, instruction by instruction, and what each operation can do, said once. -/

namespace Sys2Proof.Machine

/-! ### exec on a decode in progress -/

/-- On a decode in progress a micro-step answers a next state. -/
theorem runMicro_some {s : State} {d : Datapath} (h : s.decode = some d) (f : Datapath → Micro) :
    runMicro f s = .next (settle (f d) s) := by
  simp [runMicro, h]

/-- Outside an event it stops by name (U3). -/
theorem runMicro_none {s : State} (h : s.decode = none) (f : Datapath → Micro) : runMicro f s = .fault .noDecode := by
  simp [runMicro, h]

/-- The micro-step of a header, record or descriptor row; `none` for the other rows. -/
def microOf (p : Params) : Instr → Option (Datapath → Micro)
  | .hdr => some hdrchk
  | .nop a t => some (withAlert a (nodata p t))
  | .motion a => some (withAlert a motion)
  | .light a => some (withAlert a (light p))
  | .light8 i _ r g => some (lightValue 1 i r g)
  | .light16 i _ r g => some (lightValue 2 i r g)
  | .lightBadLen0 i _ r g => some (lightBadLen p 0 i r g)
  | .lightBadLen3 i _ r g => some (lightBadLen p 3 i r g)
  | .temp a => some (withAlert a temp)
  | .pair a => some (withAlert a pair)
  | .enc a => some (withAlert a enc)
  | .unknown a t => some (withAlert a (unknown t))
  | .discover => none
  | .tick => none
  | .shutdown => none
  | .lookup _ => none
  | .apply _ _ => none
  | .drain => none

/-- exec of such a row runs its micro-step. -/
theorem exec_micro {i : Instr} {s : State} {f : Datapath → Micro} (h : microOf s.params i = some f) :
    exec i s = runMicro f s := by
  cases i <;> simp only [microOf, Option.some.injEq, reduceCtorEq] at h <;> subst h <;> rfl

/-- A record whose alert byte, if any, is there: exec settles its handler past that byte. -/
theorem exec_withAlert {i : Instr} {s : State} {d : Datapath} {a : Bool} {f : Datapath → Micro} (h : s.decode = some d)
    (hm : microOf s.params i = some (withAlert a f)) (hl : d.cur + a.toNat ≤ d.len) :
    exec i s = .next (settle (f { d with cur := d.cur + a.toNat }) s) := by
  rw [exec_micro hm, runMicro_some h, withAlert_within f hl]

/-- The micro-step that runs the record whose control byte decodes to an instruction is the dispatch of R110. -/
theorem microOf_decodeCtrl (p : Params) (d : Datapath) :
    ∃ f, microOf p (decodeCtrl d.ctrl) = some f ∧ f d = withAlert d.A (dispatch p) d := by
  have key : ∀ f g : Datapath → Micro, (∀ e, e.ctrl = d.ctrl → f e = g e) → withAlert d.A f d = withAlert d.A g d := by
    intro f g hfg
    unfold withAlert
    cases h : alertSkip d.A d with
    | error c => rfl
    | ok e => exact hfg e (by rw [(alertSkip_ok h).1])
  unfold decodeCtrl
  simp only
  split
  · rename_i hd
    repeat' split
    all_goals
      refine ⟨_, rfl, key _ _ ?_⟩
      intro e he
      simp_all [dispatch, gateOpen, Datapath.D, Datapath.T]
  · rename_i hd
    refine ⟨_, rfl, key _ _ ?_⟩
    intro e he
    by_cases hg : p.termUngated = true ∧ dataType d.ctrl = 0x3f
    · simp [dispatch, gateOpen, Datapath.D, Datapath.T, nodata, he, hg]
    · have h1 : ¬ (p.termUngated = true ∧ dataType d.ctrl = 63#6) := hg
      simp [dispatch, gateOpen, Datapath.D, Datapath.T, nodata, he, hd, h1]

/-! ### settle -/

/-- A micro-step or a whole decode keeps the build, the inputs and the model's own fields, whatever its end. -/
theorem settle_keeps (r : Micro) (s : State) :
    (settle r s).params = s.params ∧ (settle r s).halted = s.halted ∧ (settle r s).tickPending = s.tickPending ∧
    (settle r s).shutdownPending = s.shutdownPending ∧ (settle r s).queue = s.queue ∧
    (settle r s).result = s.result ∧ (settle r s).offers = s.offers ∧ (settle r s).turns = s.turns ∧
    (settle r s).freeCount = s.freeCount := by
  cases r <;> simp [settle, finishOk]

/-! ### APPLY and DRAIN -/

/-- The four cases of APPLY (R161-R164). -/
theorem applyEntry_cases (id sum : ByteString) (s : State) :
    (∃ i, lookupKey s.rf id = none ∧ freeSlot s.rf = some i ∧
      applyEntry id sum s = ({ s with rf := s.rf.modify i (Slot.create id sum), out := s.out ++ [.log .new id sum] }, .okNew)) ∨
    (lookupKey s.rf id = none ∧ freeSlot s.rf = none ∧ applyEntry id sum s = (s, .tableFull)) ∨
    (∃ i r, lookupKey s.rf id = some i ∧ s.rf[i]? = some r ∧ r.differs sum = true ∧
      applyEntry id sum s = ({ s with rf := s.rf.modify i (Slot.replace sum) }, .okChanged)) ∨
    (∃ i r, lookupKey s.rf id = some i ∧ s.rf[i]? = some r ∧ r.differs sum = false ∧
      applyEntry id sum s = (s, .okUnchanged)) := by
  unfold applyEntry
  cases hl : lookupKey s.rf id with
  | none =>
    cases hf : freeSlot s.rf with
    | none => exact .inr (.inl ⟨rfl, rfl, rfl⟩)
    | some i => exact .inl ⟨i, rfl, rfl, rfl⟩
  | some i =>
    have hi : i < s.rf.length := by
      have := List.findIdx?_eq_some_iff_getElem.mp hl
      exact this.1
    have hr : s.rf[i]? = some s.rf[i] := by simp [hi]
    cases hd : (s.rf[i]).differs sum with
    | true => exact .inr (.inr (.inl ⟨i, _, rfl, hr, hd, by simp [hr, hd]⟩))
    | false => exact .inr (.inr (.inr ⟨i, _, rfl, hr, hd, by simp [hr, hd]⟩))

/-- What APPLY adds to the log: one NEW record with `OK_NEW`, nothing otherwise. -/
theorem applyEntry_out (id sum : ByteString) (s : State) :
    (applyEntry id sum s).1.out =
      s.out ++ (if (applyEntry id sum s).2 = .okNew then [.log .new id sum] else []) := by
  obtain ⟨i, -, -, h⟩ | ⟨-, -, h⟩ | ⟨i, r, -, -, -, h⟩ | ⟨i, r, -, -, -, h⟩ := applyEntry_cases id sum s <;> simp [h]

/-- APPLY looks at the register file alone. -/
theorem applyEntry_congr (id sum : ByteString) {s t : State} (h : s.rf = t.rf) :
    (applyEntry id sum s).1.rf = (applyEntry id sum t).1.rf ∧ (applyEntry id sum s).2 = (applyEntry id sum t).2 := by
  unfold applyEntry
  rw [h]
  split
  · split <;> simp [h]
  · split <;> simp [h]

/-- The state after `finish Ok` (R182, R185). -/
theorem finishOk_eq (d : Datapath) (s : State) :
    finishOk d s = { s with
      decode := none
      rf := (applyEntry d.id d.summary s).1.rf
      out := s.out ++ gauges d.id d.reading
        ++ (if (applyEntry d.id d.summary s).2 = .okNew then [.log .new d.id d.summary] else [])
        ++ [.status 0 (applyEntry d.id d.summary s).2 0] } := by
  have hc := applyEntry_congr d.id d.summary (s := { s with out := s.out ++ gauges d.id d.reading }) (t := s) rfl
  have ho := applyEntry_out d.id d.summary { s with out := s.out ++ gauges d.id d.reading }
  rw [hc.2] at ho
  apply State.ext <;> simp [finishOk, hc.1, hc.2, ho]

/-- A slot that LOOKUP matches, with the widths of R22, is one whose key is `k` (R160, R23). -/
theorem Slot.holds_iff {p : Params} {r : Slot} (h : r.wf p) (k : ByteString) :
    r.holds k = true ↔ r.valid = true ∧ r.keyBytes = k := by
  obtain ⟨hk, hl, -⟩ := h
  simp only [Slot.holds, Slot.keyBytes, Bool.and_eq_true, beq_iff_eq, and_assoc, and_congr_right_iff]
  intro _
  constructor
  · rintro ⟨h1, h2⟩; rw [h1]; exact h2
  · intro h1
    have h2 : r.klen = k.length := by rw [← h1, List.length_take]; omega
    exact ⟨h2, h2 ▸ h1⟩

/-- With the widths of R22, `differs` is inequality of the stored summary (R24). -/
theorem Slot.differs_iff {p : Params} {r : Slot} (h : r.wf p) (sum : ByteString) :
    r.differs sum = true ↔ r.sumBytes ≠ sum := by
  obtain ⟨-, -, hs, hl, -⟩ := h
  simp only [Slot.differs, Slot.sumBytes, Bool.or_eq_true, bne_iff_ne, ne_eq]
  constructor
  · intro h1 h2
    have h3 : r.slen = sum.length := by rw [← h2, List.length_take]; omega
    rcases h1 with h1 | h1
    · exact h1 h3
    · exact h1 (h3 ▸ h2)
  · intro h1
    by_cases h3 : r.slen = sum.length
    · exact .inr (h3 ▸ h1)
    · exact .inl h3

@[simp] theorem overwrite_take (new old : ByteString) : (overwrite new old).take new.length = new := by
  simp [overwrite]

theorem overwrite_length {new old : ByteString} (h : new.length ≤ old.length) :
    (overwrite new old).length = old.length := by
  simp [overwrite]; omega

/-- LOOKUP in a sound register file: HIT(i) exactly for the valid slot with the key. -/
theorem lookupKey_some_iff {p : Params} {rf : List Slot} (h : RfWf p rf) (k : ByteString) (i : Nat) :
    lookupKey rf k = some i ↔ ∃ r, rf[i]? = some r ∧ r.valid = true ∧ r.keyBytes = k := by
  obtain ⟨-, hw, hu, -⟩ := h
  unfold lookupKey
  rw [List.findIdx?_eq_some_iff_getElem]
  constructor
  · rintro ⟨hi, hm, -⟩
    exact ⟨rf[i], by simp [hi], (Slot.holds_iff (hw _ (List.getElem_mem hi)) k).mp hm⟩
  · rintro ⟨r, hr, hv, hk⟩
    obtain ⟨hi, rfl⟩ := List.getElem?_eq_some_iff.mp hr
    refine ⟨hi, (Slot.holds_iff (hw _ (List.getElem_mem hi)) k).mpr ⟨hv, hk⟩, ?_⟩
    intro j hj hm
    obtain ⟨hv', hk'⟩ := (Slot.holds_iff (hw _ (List.getElem_mem _)) k).mp hm
    exact List.pairwise_iff_getElem.mp hu j i (by omega) hi hj hv' hv (hk'.trans hk.symm)

/-- LOOKUP in a sound register file: MISS exactly when no valid slot has the key. -/
theorem lookupKey_none_iff {p : Params} {rf : List Slot} (h : RfWf p rf) (k : ByteString) :
    lookupKey rf k = none ↔ ∀ r ∈ rf, r.valid = true → r.keyBytes ≠ k := by
  unfold lookupKey
  rw [List.findIdx?_eq_none_iff]
  constructor
  · intro hn r hr hv hk
    have := hn r hr
    rw [(Slot.holds_iff (h.2.1 r hr) k).mpr ⟨hv, hk⟩] at this
    cases this
  · intro hn r hr
    cases hm : r.holds k with
    | false => rfl
    | true => obtain ⟨hv, hk⟩ := (Slot.holds_iff (h.2.1 r hr) k).mp hm; exact absurd hk (hn r hr hv)

end Sys2Proof.Machine
end

