-- ==== Sys2Proof/Laws/PerInstr.lean ====
section
/-! SUPPORT. Laws stated per instruction: the selecting byte of every row against the match and mask of
spec/opcode_table.json. -/

namespace Sys2Proof.Laws.TableRow

/-- Mask and match of a one-byte row of spec/opcode_table.json; none for HDR (a byte string) and for the rows
without an encoding. -/
def row : Instr → Option (Byte × Byte)
  | .hdr => none
  | .nop _ _ => some (0x40, 0x00)
  | .motion _ => some (0x7f, 0x41)
  | .light _ => some (0x7f, 0x42)
  | .light8 _ _ _ _ => some (0x03, 0x01)
  | .light16 _ _ _ _ => some (0x03, 0x02)
  | .lightBadLen0 _ _ _ _ => some (0x03, 0x00)
  | .lightBadLen3 _ _ _ _ => some (0x03, 0x03)
  | .temp _ => some (0x7f, 0x43)
  | .pair _ => some (0x7f, 0x6f)
  | .enc _ => some (0x7f, 0x7f)
  | .unknown _ _ => some (0x40, 0x40)
  | .discover => some (0x03, 0x00)
  | .tick => some (0x03, 0x01)
  | .shutdown => some (0x03, 0x02)
  | .lookup _ => none
  | .apply _ _ => none
  | .drain => none

/-- The selecting bytes of a row as the table gives them: masked, its byte is the row's match; HDR is the magic
prefix; a row without an encoding has no byte. -/
def rowOk (i : Instr) : Bool :=
  match i.space, row i with
  | none, _ => encode i == []
  | some .header, _ => encode i == [0x85, 0x00, 0x02, 0x00, 0x3c]
  | some _, none => false
  | some _, some (mask, mat) => (encode i).length == 1 && (encode i).all (fun b => b &&& mask == mat)

/-- The encoding of the instruction agrees with its row of the opcode table. -/
def Statement (i : Instr) : Prop := rowOk i = true

theorem hdr : Statement .hdr := by unfold Statement; decide

theorem nop : ∀ (alert : Bool) (type : BitVec 6), Statement (.nop alert type) := by unfold Statement; decide

theorem motion : ∀ alert : Bool, Statement (.motion alert) := by unfold Statement; decide

theorem light : ∀ alert : Bool, Statement (.light alert) := by unfold Statement; decide

theorem light8 : ∀ (ir spare : Bool) (res rng : BitVec 2), Statement (.light8 ir spare res rng) := by
  unfold Statement; decide

theorem light16 : ∀ (ir spare : Bool) (res rng : BitVec 2), Statement (.light16 ir spare res rng) := by
  unfold Statement; decide

theorem lightBadLen0 : ∀ (ir spare : Bool) (res rng : BitVec 2), Statement (.lightBadLen0 ir spare res rng) := by
  unfold Statement; decide

theorem lightBadLen3 : ∀ (ir spare : Bool) (res rng : BitVec 2), Statement (.lightBadLen3 ir spare res rng) := by
  unfold Statement; decide

theorem temp : ∀ alert : Bool, Statement (.temp alert) := by unfold Statement; decide

theorem pair : ∀ alert : Bool, Statement (.pair alert) := by unfold Statement; decide

theorem enc : ∀ alert : Bool, Statement (.enc alert) := by unfold Statement; decide

theorem unknown : ∀ (alert : Bool) (type : BitVec 6), Statement (.unknown alert type) := by unfold Statement; decide

theorem discover : Statement .discover := by unfold Statement; decide

theorem tick : Statement .tick := by unfold Statement; decide

theorem shutdown : Statement .shutdown := by unfold Statement; decide

theorem lookup (key : ByteString) : Statement (.lookup key) := rfl

theorem apply (id summary : ByteString) : Statement (.apply id summary) := rfl

theorem drain : Statement .drain := rfl

end Sys2Proof.Laws.TableRow
end

