-- ==== Sys2Proof/Laws/Step.lean ====
section
/-! SUPPORT. What a step can do, said once: inside a decode it settles one micro-step; between events it is an input, an
event, or a wait. -/

namespace Sys2Proof.Machine

/-! ### Inside a decode -/

/-- What becomes of a micro-step does not depend on the datapath it started from. -/
theorem settle_decode (r : Micro) (s : State) (x : Option Datapath) : settle r { s with decode := x } = settle r s := by
  cases r with
  | cont d => rfl
  | raised c => rfl
  | finish d =>
    have := applyEntry_congr d.id d.summary (s := { s with decode := x }) (t := s) rfl
    apply State.ext <;> simp [settle, finishOk_eq, this.1, this.2]

/-- The micro-step of the row that a fetched descriptor selects. -/
def descStep (p : Params) (d : Datapath) : Micro :=
  lightByLen p (lenCode d.desc) (isIR d.desc) (resolution d.desc) (rangeCode d.desc) d

/-- The micro-step a step takes inside a decode. -/
def microStep (p : Params) (d : Datapath) : Micro :=
  match d.phase with
  | .header => hdrchk d
  | .record => recordStep p d
  | .light => descStep p d

theorem microOf_decodeDesc (p : Params) (d : Datapath) :
    ∃ f, microOf p (decodeDesc d.desc) = some f ∧ f d = descStep p d := by
  have h4 : ∀ g : BitVec 2, g = 0 ∨ g = 1 ∨ g = 2 ∨ g = 3 := by decide
  unfold decodeDesc descStep lightByLen
  rcases h4 (lenCode d.desc) with h | h | h | h <;> rw [h] <;> exact ⟨_, rfl, rfl⟩

/-- Inside a decode a step settles its micro-step. -/
theorem step_decode {s : State} {d : Datapath} (h : s.decode = some d) :
    step s = .next (settle (microStep s.params d) s) := by
  have hs : fetch s = fetchMicro d s := by simp only [fetch, h]
  unfold step microStep
  rw [hs]
  cases hp : d.phase with
  | header => simp only [fetchMicro, hp, exec_micro (i := .hdr) rfl, runMicro_some h]
  | light =>
    obtain ⟨f, hf, hfd⟩ := microOf_decodeDesc s.params d
    simp only [fetchMicro, hp, exec_micro hf, runMicro_some h, hfd]
  | record =>
    simp only [fetchMicro, hp, recordStep]
    by_cases hc : d.cur = d.len
    · simp only [if_pos hc]; rfl
    · simp only [if_neg hc]
      cases hf : fetchCtrl d with
      | error c => rfl
      | ok d1 =>
        obtain ⟨f, hf, hfd⟩ := microOf_decodeCtrl s.params d1
        have e := exec_micro (i := decodeCtrl d1.ctrl) (s := { s with decode := some d1 }) hf
        rw [runMicro_some (s := { s with decode := some d1 }) (d := d1) rfl, hfd, settle_decode] at e
        exact e

/-! ### Between events -/

theorem mem_enabled (s : State) (e : Event) : e ∈ enabled s ↔ canTake e s = true := by
  cases e <;> simp [enabled]

/-- An enabled event has the state it needs (R180, R190). -/
theorem canTake_iff (e : Event) (s : State) :
    canTake e s = true ↔ s.halted = false ∧ s.decode = none ∧ pending s e = true := by
  simp [canTake, and_assoc]

/-- The controller's own choice: it waits, or takes an enabled event. -/
theorem selectFree_cases (s : State) :
    (selectFree s = .over s ∧ ∀ e, canTake e s = false) ∨
    (∃ e n, canTake e s = true ∧ selectFree s = .run e.instr { s with freeCount := n }) := by
  unfold selectFree
  cases hl : enabled s with
  | nil =>
    refine .inl ⟨rfl, fun e => ?_⟩
    have := mt (mem_enabled s e).mpr (by simp [hl])
    simpa using this
  | cons a l =>
    cases l with
    | nil => exact .inr ⟨a, s.freeCount, (mem_enabled s a).mp (by simp [hl]), rfl⟩
    | cons b l =>
      have hlt : Config.freeSelect s.freeCount % (a :: b :: l).length < (a :: b :: l).length :=
        Nat.mod_lt _ (by simp)
      refine .inr ⟨(a :: b :: l)[Config.freeSelect s.freeCount % (a :: b :: l).length], s.freeCount + 1, ?_, ?_⟩
      · apply (mem_enabled s _).mp
        rw [hl]; exact List.getElem_mem hlt
      · simp only [List.getElem?_eq_getElem hlt, Option.getD_some]

/-- Between events a step waits or passes a turn, lets one input land, or takes one enabled event. -/
theorem step_idle {s : State} (h : s.decode = none) :
    (∃ ts, step s = .next { s with turns := ts } ∧ (s.turns = ts ∨ ∃ x, s.turns = x :: ts)) ∨
    (∃ ts, s.turns = .offer :: ts ∧ step s = .next (inputOffer { s with turns := ts })) ∨
    (∃ ts, s.turns = .assertTick :: ts ∧ step s = .next (inputTick { s with turns := ts })) ∨
    (∃ ts, s.turns = .assertShutdown :: ts ∧ step s = .next (inputShutdown { s with turns := ts })) ∨
    (∃ ts, s.turns = .assertReset :: ts ∧ step s = .next (inputReset { s with turns := ts })) ∨
    (∃ e ts n, canTake e s = true ∧ step s = exec e.instr { s with turns := ts, freeCount := n }) := by
  have hs : fetch s = fetchTurn s := by simp only [fetch, h]
  match ht : s.turns with
  | [] =>
    have hf : fetchTurn s = selectFree s := by simp only [fetchTurn, ht]
    obtain ⟨hw, -⟩ | ⟨e, n, he, hr⟩ := selectFree_cases s
    · exact .inl ⟨s.turns, by simp only [step, hs, hf, hw], .inl (by rw [ht])⟩
    · exact .inr (.inr (.inr (.inr (.inr ⟨e, s.turns, n, he, by simp only [step, hs, hf, hr]⟩))))
  | .offer :: ts => exact .inr (.inl ⟨ts, rfl, by simp only [step, hs, fetchTurn, ht]⟩)
  | .assertTick :: ts => exact .inr (.inr (.inl ⟨ts, rfl, by simp only [step, hs, fetchTurn, ht]⟩))
  | .assertShutdown :: ts => exact .inr (.inr (.inr (.inl ⟨ts, rfl, by simp only [step, hs, fetchTurn, ht]⟩)))
  | .assertReset :: ts => exact .inr (.inr (.inr (.inr (.inl ⟨ts, rfl, by simp only [step, hs, fetchTurn, ht]⟩))))
  | .take e :: ts =>
    by_cases hc : canTake e s = true
    · exact .inr (.inr (.inr (.inr (.inr ⟨e, ts, s.freeCount, hc, by simp only [step, hs, fetchTurn, ht, if_pos hc]⟩))))
    · exact .inl ⟨ts, by simp only [step, hs, fetchTurn, ht, if_neg hc], .inr ⟨_, rfl⟩⟩

/-- What an event taken answers: DISCOVER works on the head triple, TICK drains, SHUTDOWN halts. -/
theorem exec_event {e : Event} {s : State} (h : canTake e s = true) :
    (e = .discover ∧ ∃ t rest, s.queue = t :: rest ∧
      exec .discover s = .next (discoverTriple t { s with queue := rest })) ∨
    (e = .tick ∧ s.tickPending = true ∧
      exec .tick s = .next ((drainEntries { s with tickPending := false }).1.status 1 .drainDone
        (drainEntries { s with tickPending := false }).2)) ∨
    (e = .shutdown ∧ s.shutdownPending = true ∧
      exec .shutdown s = .next (({ s with halted := true, queue := [], tickPending := false } : State).status 2 .halted
        s.queue.length)) := by
  have hp := ((canTake_iff e s).mp h).2.2
  cases e with
  | discover =>
    cases hq : s.queue with
    | nil => simp [pending, hq] at hp
    | cons t rest => exact .inl ⟨rfl, t, rest, rfl, by simp [exec, execDiscover, h, hq]⟩
  | tick => exact .inr (.inl ⟨rfl, hp, by simp [exec, execTick, h]⟩)
  | shutdown => exact .inr (.inr ⟨rfl, hp, by simp [exec, execShutdown, h]⟩)

/-- DISCOVER on a triple: one of the two refusals, or a whole decode settled. -/
theorem discoverTriple_cases (t : Discovery) (s : State) :
    (s.params.keyMax < t.id.length ∧ discoverTriple t s = s.status 0 .refusedKey t.id.length) ∨
    (t.id.length ≤ s.params.keyMax ∧ s.params.maxPayload < t.payload.length ∧
      discoverTriple t s = s.status 0 .refusedPayload t.payload.length) ∨
    (t.id.length ≤ s.params.keyMax ∧ t.payload.length ≤ s.params.maxPayload ∧
      discoverTriple t s = settle (decodeRun s.params (latch (Config.unwritten s.freeCount) t))
        { s with freeCount := s.freeCount + 1 }) := by
  unfold discoverTriple
  by_cases h1 : s.params.keyMax < t.id.length
  · exact .inl ⟨h1, by rw [if_pos h1]⟩
  · rw [if_neg h1]
    by_cases h2 : s.params.maxPayload < t.payload.length
    · exact .inr (.inl ⟨by omega, h2, by rw [if_pos h2]⟩)
    · exact .inr (.inr ⟨by omega, by omega, by rw [if_neg h2]⟩)

/-- A step between events, inverted: the next state is a wait, an input, or one of the three events' effects. -/
theorem step_idle_cases {s t : State} (h : s.decode = none) (hs : step s = .next t) :
    (∃ ts, t = { s with turns := ts }) ∨
    (∃ ts, t = inputOffer { s with turns := ts }) ∨
    (∃ ts, t = inputTick { s with turns := ts }) ∨
    (∃ ts, t = inputShutdown { s with turns := ts }) ∨
    (∃ ts, s.turns = .assertReset :: ts ∧ t = inputReset { s with turns := ts }) ∨
    (∃ ts n tr rest, s.halted = false ∧ s.queue = tr :: rest ∧
      t = discoverTriple tr { s with queue := rest, turns := ts, freeCount := n }) ∨
    (∃ ts n, s.halted = false ∧ s.tickPending = true ∧
      t = (drainEntries { s with tickPending := false, turns := ts, freeCount := n }).1.status 1 .drainDone
        (drainEntries { s with tickPending := false, turns := ts, freeCount := n }).2) ∨
    (∃ ts n, s.halted = false ∧ s.shutdownPending = true ∧
      t = ({ s with halted := true, queue := [], tickPending := false, turns := ts, freeCount := n } : State).status 2
        .halted s.queue.length) := by
  have inj : ∀ u : State, step s = .next u → t = u := by
    intro u hu; rw [hs] at hu; injection hu
  obtain ⟨ts, h1, -⟩ | ⟨ts, -, h1⟩ | ⟨ts, -, h1⟩ | ⟨ts, -, h1⟩ | ⟨ts, h0, h1⟩ | ⟨e, ts, n, he, h1⟩ := step_idle h
  · exact .inl ⟨ts, inj _ h1⟩
  · exact .inr (.inl ⟨ts, inj _ h1⟩)
  · exact .inr (.inr (.inl ⟨ts, inj _ h1⟩))
  · exact .inr (.inr (.inr (.inl ⟨ts, inj _ h1⟩)))
  · exact .inr (.inr (.inr (.inr (.inl ⟨ts, h0, inj _ h1⟩))))
  · have hh := ((canTake_iff e s).mp he).1
    have he' : canTake e { s with turns := ts, freeCount := n } = true := by cases e <;> exact he
    obtain ⟨rfl, tr, rest, hq, h2⟩ | ⟨rfl, hp, h2⟩ | ⟨rfl, hp, h2⟩ := exec_event he'
    · exact .inr (.inr (.inr (.inr (.inr (.inl ⟨ts, n, tr, rest, hh, hq, inj _ (h1.trans h2)⟩)))))
    · exact .inr (.inr (.inr (.inr (.inr (.inr (.inl ⟨ts, n, hh, hp, inj _ (h1.trans h2)⟩))))))
    · exact .inr (.inr (.inr (.inr (.inr (.inr (.inr ⟨ts, n, hh, hp, inj _ (h1.trans h2)⟩))))))

end Sys2Proof.Machine
end

