-- ==== Sys2Proof/Laws/Summary.lean ====
section
/-! SUPPORT. The summary text: the recursion of `dec`, and how long numbers and segments get. -/

namespace Sys2Proof.Machine

/-! ### Decimal text -/

theorem decFuel_enough (f g n : Nat) (hf : n < f) (hg : n < g) : decFuel f n = decFuel g n := by
  induction f generalizing g n with
  | zero => omega
  | succ f ih =>
    cases g with
    | zero => omega
    | succ g =>
      simp only [decFuel]
      split
      · rfl
      · rw [ih g (n / 10) (by omega) (by omega)]

/-- The text of a number is that of its tens, then its last digit. -/
theorem dec_eq (n : Nat) : dec n = if n < 10 then [digit n] else dec (n / 10) ++ [digit (n % 10)] := by
  unfold dec
  conv => lhs; unfold decFuel
  by_cases h : n < 10
  · simp [h]
  · rw [if_neg h, if_neg h, decFuel_enough n (n / 10 + 1) (n / 10) (by omega) (by omega)]

theorem dec_small {n : Nat} (h : n < 10) : dec n = [digit n] := by rw [dec_eq, if_pos h]

/-- A number below `10^(k+1)` has at most `k+1` digits. -/
theorem dec_length_le (k n : Nat) (h : n < 10 ^ (k + 1)) : (dec n).length ≤ k + 1 := by
  induction k generalizing n with
  | zero => rw [dec_small (by simpa using h)]; simp
  | succ k ih =>
    rw [dec_eq]
    split
    · simp
    · have := ih (n / 10) (by rw [Nat.div_lt_iff_lt_mul (by decide)]; rw [Nat.pow_succ] at h; exact h)
      simp only [List.length_append, List.length_singleton]; omega

/-! ### Rounding -/

/-- The tenths of a temperature: nearest, an exact tie to the even one (R143). -/
theorem rhe_eighths (t : Int) :
    rhe (5 * t) 8 = 5 * t / 8 +
      (if 5 * t % 8 < 4 then 0 else if 5 * t % 8 = 4 then 5 * t / 8 % 2 else 1) := by
  unfold rhe
  simp only [Nat.cast_ofNat]
  split <;> split <;> (try split) <;> omega

/-- A number in range has a temperature text of at most 7 bytes. -/
theorem fmtTemp_length_le (t : Int) (h1 : -32768 ≤ t) (h2 : t ≤ 32767) : (fmtTemp t).length ≤ 7 := by
  have hq := rhe_eighths t
  unfold fmtTemp
  simp only
  have hb : (rhe (5 * t) 8).natAbs ≤ 20480 := by rw [hq]; split <;> (try split) <;> omega
  have h3 := dec_length_le 3 ((rhe (5 * t) 8).natAbs / 10) (by omega)
  have h4 : (dec ((rhe (5 * t) 8).natAbs % 10)).length = 1 := by rw [dec_small (by omega)]; rfl
  split <;> simp only [List.length_append, List.length_singleton, List.length_nil, h4] <;> omega

/-! ### Segments -/

theorem battSegment_length_le (b : Byte) : (battSegment b).length ≤ 9 := by
  have := dec_length_le 2 b.toNat (by have := b.isLt; omega)
  simp [battSegment, txtBatt, txtPercent]; omega

theorem tempSegment_length_le (v : Half) : (tempSegment v).length ≤ 16 := by
  have := fmtTemp_length_le v.toInt (by have := v.le_toInt; omega) (by have := v.toInt_lt; omega)
  simp [tempSegment, txtTemp, txtDegC]; omega

/-- A light segment is at most 17 bytes and the digits of its value. -/
theorem lightSegment_length_le (ir : Bool) (res rng : BitVec 2) (v : Half) :
    (lightSegment ir res rng v).length ≤ 17 + (dec v.toNat).length := by
  have h1 : (dec res.toNat).length = 1 := by rw [dec_small (by omega)]; rfl
  have h2 : (dec rng.toNat).length = 1 := by rw [dec_small (by omega)]; rfl
  have h3 : (irText ir).length ≤ 5 := by cases ir <;> decide
  simp [lightSegment, txtLight, txtSlash, h1, h2]; omega

end Sys2Proof.Machine
end

