-- ==== Sys2Proof/Laws/Records.lean ====
section
/-! SUPPORT. What a record can do, said once: it moves the cursor forward within the buffer, appends at most 20/3
summary bytes per byte consumed, and leaves the rest of the decode alone. -/

namespace Sys2Proof.Machine

/-- `e` comes after `d` in one decode: same id, buffer, length and battery; the cursor has not moved back nor past
`len`; the summary grew by at most `k` thirds of a byte and 20 thirds per byte consumed (R32, R56, R146). -/
structure Moved (k : Nat) (d e : Datapath) : Prop where
  id : e.id = d.id
  buf : e.buf = d.buf
  len : e.len = d.len
  batt : e.batt = d.batt
  cur : d.cur ≤ e.cur
  within : d.cur ≤ d.len → e.cur ≤ d.len
  sum : 3 * e.summary.length ≤ 3 * d.summary.length + 20 * (e.cur - d.cur) + k

/-- A micro-step ends within the decode it began in. -/
def MicroMoved (k : Nat) (d : Datapath) : Micro → Prop
  | .cont e => Moved k d e
  | .finish e => Moved k d e
  | .raised _ => True

theorem Moved.refl (d : Datapath) : Moved 0 d d := by constructor <;> simp

theorem Moved.trans {k l : Nat} {d e f : Datapath} (h : Moved k d e) (g : Moved l e f) : Moved (k + l) d f := by
  obtain ⟨a1, a2, a3, a4, a5, a6, a7⟩ := h
  obtain ⟨b1, b2, b3, b4, b5, b6, b7⟩ := g
  constructor
  · exact b1.trans a1
  · exact b2.trans a2
  · exact b3.trans a3
  · exact b4.trans a4
  · omega
  · intro h; rw [a3] at b6; exact b6 (a6 h)
  · omega

/-- The first part of a micro-step pays for the second. -/
theorem Moved.micro {k l : Nat} {d e : Datapath} {r : Micro} (h : Moved k d e) (g : MicroMoved l e r) :
    MicroMoved (k + l) d r := by
  cases r with
  | cont f => exact h.trans g
  | finish f => exact h.trans g
  | raised c => trivial

/-- A move of the cursor within the buffer that touches no other register than `ctrl`, `desc` and the cursor. -/
theorem Moved.advance {d e : Datapath} (n : Nat) (hl : d.cur + n ≤ d.len)
    (he : ∃ c g, e = { d with cur := d.cur + n, ctrl := c, desc := g }) : Moved 0 d e := by
  obtain ⟨c, g, rfl⟩ := he
  exact ⟨rfl, rfl, rfl, rfl, by simp, fun _ => hl, by simp⟩

/-- Bytes consumed before a micro-step pay 20 thirds each for what it appends. -/
theorem MicroMoved.after {k : Nat} {d e : Datapath} {r : Micro} (n : Nat) (hl : d.cur + n ≤ d.len)
    (he : ∃ c g, e = { d with cur := d.cur + n, ctrl := c, desc := g }) (h : MicroMoved (k + 20 * n) e r) :
    MicroMoved k d r := by
  obtain ⟨c, g, rfl⟩ := he
  have key : ∀ f, Moved (k + 20 * n) { d with cur := d.cur + n, ctrl := c, desc := g } f → Moved k d f := by
    rintro f ⟨b1, b2, b3, b4, b5, b6, b7⟩
    simp only at b1 b2 b3 b4 b5 b6 b7
    exact ⟨b1, b2, b3, b4, by omega, fun _ => b6 hl, by omega⟩
  cases r with
  | cont f => exact key f h
  | finish f => exact key f h
  | raised c => trivial

theorem MicroMoved.weaken {k l : Nat} (hkl : k ≤ l) {d : Datapath} {r : Micro} (h : MicroMoved k d r) : MicroMoved l d r := by
  obtain ⟨m, rfl⟩ := Nat.exists_eq_add_of_le hkl
  have : MicroMoved (0 + (k + m)) d r := by
    cases r with
    | cont e => exact ⟨h.id, h.buf, h.len, h.batt, h.cur, h.within, by have := h.sum; omega⟩
    | finish e => exact ⟨h.id, h.buf, h.len, h.batt, h.cur, h.within, by have := h.sum; omega⟩
    | raised c => trivial
  rwa [Nat.zero_add] at this

theorem moved_alert {d e : Datapath} {a : Bool} (h : alertSkip a d = .ok e) : Moved 0 d e := by
  obtain ⟨h1, h2⟩ := alertSkip_ok h
  cases a with
  | false =>
    have : e = d := by simpa using h1
    rw [this]; exact Moved.refl d
  | true => exact Moved.advance 1 (h2 rfl) ⟨d.ctrl, d.desc, h1⟩

theorem microMoved_withAlert {k : Nat} {f : Datapath → Micro} (h : ∀ e, MicroMoved k e (f e)) (a : Bool) (d : Datapath) :
    MicroMoved k d (withAlert a f d) := by
  unfold withAlert
  split
  · trivial
  · rename_i e he
    have := (moved_alert he).micro (h e)
    rwa [Nat.zero_add] at this

theorem microMoved_skip (n : Nat) (d : Datapath) : MicroMoved 0 d (skipPayload n d) := by
  unfold skipPayload
  split
  · trivial
  · rename_i e he
    obtain ⟨h1, h2⟩ := skip_ok he
    exact Moved.advance n h1 ⟨d.ctrl, d.desc, h2⟩

theorem microMoved_temp (d : Datapath) : MicroMoved 20 d (temp d) := by
  unfold temp
  split
  · trivial
  · rename_i v e he
    obtain ⟨h1, -, rfl⟩ := takeValue_ok he
    have := tempSegment_length_le v
    constructor <;> simp <;> omega

theorem takeValue_one_lt {d e : Datapath} {v : Half} (h : takeValue 1 d = .ok (v, e)) : v.toNat < 256 := by
  obtain ⟨-, h2, -⟩ := takeValue_ok h
  unfold memRead at h2
  split at h2
  · cases h2
  · rw [leBytes_one] at h2
    cases hr : d.buf.read d.cur with
    | none => simp [hr] at h2
    | some b =>
      simp only [hr, Option.map_some, Except.ok.injEq] at h2
      have hb : b.toNat < 256 := b.isLt
      rw [← h2]; simp; omega

theorem microMoved_lightValue (n : Nat) (hn : n = 1 ∨ n = 2) (ir : Bool) (res rng : BitVec 2) (d : Datapath) :
    MicroMoved 40 d (lightValue n ir res rng d) := by
  unfold lightValue
  split
  · trivial
  · rename_i v e he
    obtain ⟨h1, -, h3⟩ := takeValue_ok he
    have hs := lightSegment_length_le ir res rng v
    have hd : 3 * (dec v.toNat).length ≤ 20 * n - 11 := by
      rcases hn with rfl | rfl
      · have := dec_length_le 2 v.toNat (by have := takeValue_one_lt he; omega); omega
      · have := dec_length_le 4 v.toNat (by have := v.isLt; omega); omega
    subst h3
    constructor <;> simp [commitLight] <;> omega

theorem microMoved_lightByLen (p : Params) (g : BitVec 2) (ir : Bool) (res rng : BitVec 2) (d : Datapath) :
    MicroMoved 40 d (lightByLen p g ir res rng d) := by
  unfold lightByLen lightBadLen
  split
  · exact microMoved_lightValue 2 (.inr rfl) ir res rng d
  · split
    · exact microMoved_lightValue 1 (.inl rfl) ir res rng d
    · split
      · exact microMoved_lightValue 1 (.inl rfl) ir res rng d
      · trivial

theorem takeDesc_ok {d e : Datapath} (h : takeDesc d = .ok e) :
    d.cur + 1 ≤ d.len ∧ ∃ g, e = { d with cur := d.cur + 1, desc := g } := by
  unfold takeDesc at h
  split at h
  · cases h
  · rename_i v hv
    injection h with h
    exact ⟨memRead_ok hv, _, h.symm⟩

theorem fetchCtrl_ok {d e : Datapath} (h : fetchCtrl d = .ok e) :
    d.cur + 1 ≤ d.len ∧ ∃ c, e = { d with cur := d.cur + 1, ctrl := c } := by
  unfold fetchCtrl at h
  split at h
  · cases h
  · rename_i v hv
    injection h with h
    exact ⟨memRead_ok hv, _, h.symm⟩

theorem microMoved_light (p : Params) (d : Datapath) : MicroMoved 20 d (light p d) := by
  unfold light
  split
  · trivial
  · rename_i e he
    obtain ⟨h1, g, h2⟩ := takeDesc_ok he
    exact MicroMoved.after 1 h1 ⟨d.ctrl, g, h2⟩ (microMoved_lightByLen p _ _ _ _ e)

theorem microMoved_dispatch (p : Params) (d : Datapath) : MicroMoved 20 d (dispatch p d) := by
  unfold dispatch motion pair enc unknown
  repeat' split
  · exact (microMoved_skip 2 d).weaken (by omega)
  · exact microMoved_light p d
  · exact microMoved_temp d
  · exact (microMoved_skip 1 d).weaken (by omega)
  · exact (show MicroMoved 0 d (.finish d) from Moved.refl d).weaken (by omega)
  · trivial
  · exact (show MicroMoved 0 d (.cont d) from Moved.refl d).weaken (by omega)

/-- One record: forward within the buffer, at most 20/3 summary bytes per byte of the payload (R32, R146). -/
theorem microMoved_recordStep (p : Params) (d : Datapath) : MicroMoved 0 d (recordStep p d) := by
  unfold recordStep
  split
  · exact Moved.refl d
  · split
    · trivial
    · rename_i e he
      obtain ⟨h1, c, h2⟩ := fetchCtrl_ok he
      exact MicroMoved.after 1 h1 ⟨c, d.desc, h2⟩ (microMoved_withAlert (microMoved_dispatch p) _ e)

/-- A record that does not end the decode consumes at least its control byte (R123). -/
theorem recordStep_cont_lt {p : Params} {d e : Datapath} (h : recordStep p d = .cont e) :
    d.cur < e.cur ∧ d.cur + 1 ≤ d.len := by
  unfold recordStep at h
  split at h
  · cases h
  · split at h
    · cases h
    · rename_i f hf
      obtain ⟨h1, c, h2⟩ := fetchCtrl_ok hf
      have := microMoved_withAlert (microMoved_dispatch p) f.A f
      rw [h] at this
      have hc := this.cur
      rw [h2] at hc
      simp only at hc
      omega

/-! ### The phase -/

/-- A micro-step that goes on is at the top of the record loop again. -/
def EndsAtRecord : Micro → Prop
  | .cont e => e.phase = .record
  | .finish _ => True
  | .raised _ => True

theorem endsAtRecord_recordStep (p : Params) (d : Datapath) (hp : d.phase = .record) : EndsAtRecord (recordStep p d) := by
  have hl : ∀ n ir res rng e, EndsAtRecord (lightValue n ir res rng e) := by
    intro n ir res rng e; unfold lightValue; split <;> trivial
  have hs : ∀ n e, e.phase = .record → EndsAtRecord (skipPayload n e) := by
    intro n e he; unfold skipPayload; split
    · trivial
    · rename_i f hf; rw [(skip_ok hf).2]; exact he
  have hd : ∀ e : Datapath, e.phase = .record → EndsAtRecord (dispatch p e) := by
    intro e he
    unfold dispatch motion pair enc unknown temp light lightByLen lightBadLen
    repeat' split
    all_goals first | trivial | exact hl _ _ _ _ _ | exact hs _ _ he | exact he | skip
    rename_i hf; rw [(takeValue_ok hf).2.2]; exact he
  unfold recordStep
  split
  · trivial
  · split
    · trivial
    · rename_i e he
      obtain ⟨-, c, h2⟩ := fetchCtrl_ok he
      unfold withAlert
      split
      · trivial
      · rename_i f hf
        exact hd f (by rw [(alertSkip_ok hf).1, h2]; exact hp)

/-! ### The header -/

/-- HDRCHK raises, or goes on with the cursor at 7 and the battery segment as the summary (R100-R104). -/
theorem hdrchk_cases (d : Datapath) :
    (∃ c, hdrchk d = .raised c) ∨
    (7 ≤ d.len ∧ ∃ b : Byte, memRead d 5 1 = .ok (b.zeroExtend 16) ∧ hdrchk d = .cont { d with
      phase := .record, batt := b, cur := 7, tempV := false, lightV := false, summary := battSegment b }) := by
  unfold hdrchk
  split
  · exact .inl ⟨_, rfl⟩
  · split
    · split
      · exact .inl ⟨_, rfl⟩
      · rename_i v hv
        refine .inr ⟨by omega, v.truncate 8, ?_, rfl⟩
        rw [hv]
        unfold memRead at hv
        split at hv
        · cases hv
        · rw [leBytes_one] at hv
          cases hr : d.buf.read 5 with
          | none => simp [hr] at hv
          | some b => simp only [hr, Option.map_some, Except.ok.injEq] at hv; rw [← hv]; simp
    · exact .inl ⟨_, rfl⟩

/-! ### The whole decode -/

/-- With more iterations than bytes left, the record loop ends in `Ok` or a raise (R123), never having moved out of the
buffer. -/
theorem rloop_ends (p : Params) (fuel : Nat) (d : Datapath) (hl : d.cur ≤ d.len) (hf : d.len < d.cur + fuel) :
    (∃ c, rloop p fuel d = .raised c) ∨ (∃ e, rloop p fuel d = .finish e ∧ Moved 0 d e) := by
  induction fuel generalizing d with
  | zero => omega
  | succ fuel ih =>
    have hm := microMoved_recordStep p d
    simp only [rloop]
    cases hr : recordStep p d with
    | raised c => exact .inl ⟨c, rfl⟩
    | finish e => rw [hr] at hm; exact .inr ⟨e, rfl, hm⟩
    | cont e =>
      rw [hr] at hm
      have hlt := recordStep_cont_lt hr
      have hle := hm.len
      have hw := hm.within hl
      obtain ⟨c, hc⟩ | ⟨f, h1, h2⟩ := ih e (by omega) (by omega)
      · exact .inl ⟨c, hc⟩
      · exact .inr ⟨f, h1, by have := hm.trans h2; rwa [Nat.zero_add] at this⟩

/-- A whole decode raises, or ends `Ok` with the id it began with and a summary within the bound of R146. -/
theorem decodeRun_ends (p : Params) (d : Datapath) :
    (∃ c, decodeRun p d = .raised c) ∨
    (∃ e, decodeRun p d = .finish e ∧ e.id = d.id ∧ e.len = d.len ∧ 3 * e.summary.length ≤ 27 + 20 * (d.len - 7)) := by
  unfold decodeRun
  obtain ⟨c, hc⟩ | ⟨h7, b, -, hc⟩ := hdrchk_cases d
  · exact .inl ⟨c, by rw [hc]⟩
  · rw [hc]
    obtain ⟨c, hc⟩ | ⟨e, h1, h2⟩ := rloop_ends p (d.len + 1) { d with
        phase := .record, batt := b, cur := 7, tempV := false, lightV := false, summary := battSegment b } h7
        (by simp only; omega)
    · exact .inl ⟨c, hc⟩
    · refine .inr ⟨e, h1, h2.id, h2.len, ?_⟩
      have h3 := h2.sum
      have h4 := h2.within h7
      have h5 := battSegment_length_le b
      simp only at *
      omega

end Sys2Proof.Machine
end

