-- ==== Sys2Proof/Laws/RegFile.lean ====
section
/-! SUPPORT. The register file: allocation, and that APPLY, DRAIN and reset keep it sound. -/

namespace Sys2Proof.Machine

/-- Changing one slot is setting it. -/
theorem modify_eq_set {rf : List Slot} {i : Nat} {r : Slot} (h : rf[i]? = some r) (f : Slot → Slot) :
    rf.modify i f = rf.set i (f r) := by
  obtain ⟨hi, rfl⟩ := List.getElem?_eq_some_iff.mp h
  apply List.ext_getElem?
  intro j
  rw [List.getElem?_modify, List.getElem?_set]
  by_cases hj : i = j
  · subst hj; simp [hi]
  · simp [hj]

/-- The free slot of lowest index is the one allocation finds (R165). -/
theorem freeSlot_of {rf : List Slot} {i : Nat} {r : Slot} (h : rf[i]? = some r) (hv : r.valid = false)
    (hl : ∀ j x, j < i → rf[j]? = some x → x.valid = true) : freeSlot rf = some i := by
  obtain ⟨hi, rfl⟩ := List.getElem?_eq_some_iff.mp h
  rw [freeSlot, List.findIdx?_eq_some_iff_getElem]
  exact ⟨hi, by simp [hv], fun j hj => by simp [hl j rf[j] hj (by simp [Nat.lt_trans hj hi])]⟩

/-- What allocation finds is free, and every slot below it is taken (R165). -/
theorem freeSlot_some {rf : List Slot} {i : Nat} (h : freeSlot rf = some i) :
    ∃ r, rf[i]? = some r ∧ r.valid = false ∧ (∀ j x, j < i → rf[j]? = some x → x.valid = true) := by
  rw [freeSlot, List.findIdx?_eq_some_iff_getElem] at h
  obtain ⟨hi, h1, h2⟩ := h
  refine ⟨rf[i], by simp [hi], by simpa using h1, ?_⟩
  intro j x hj hx
  obtain ⟨hj', rfl⟩ := List.getElem?_eq_some_iff.mp hx
  simpa using h2 j hj

/-- APPLY on operands the storage can hold is the shared operation, with its code as the result. -/
theorem exec_apply_fits {s : State} {id sum} (h1 : id.length ≤ s.params.keyMax) (h2 : sum.length ≤ s.params.summaryMax) :
   exec (.apply id sum) s = .next { (applyEntry id sum s).1 with result := some (.apply (applyEntry id sum s).2) } := by
  simp [exec, execApply, h1, h2]

/-- A created slot has its widths (R22). -/
theorem Slot.create_wf {p : Params} {r : Slot} {id sum} (h : r.wf p) (h1 : id.length ≤ p.keyMax) (h2 : sum.length ≤ p.summaryMax) :
    (Slot.create id sum r).wf p := by
  obtain ⟨a, b, c, d, e⟩ := h
  refine ⟨h1, ?_, h2, ?_, by simp⟩
  · simp only [Slot.create_key]; rw [overwrite_length (by omega)]; exact b
  · simp only [Slot.create_sum]; rw [overwrite_length (by omega)]; exact d

/-- A replaced slot has its widths (R22). -/
theorem Slot.replace_wf {p : Params} {r : Slot} {sum} (h : r.wf p) (hv : r.valid = true) (h2 : sum.length ≤ p.summaryMax) :
    (Slot.replace sum r).wf p := by
  obtain ⟨a, b, c, d, e⟩ := h
  refine ⟨a, b, h2, ?_, fun _ => hv⟩
  simp only [Slot.replace_sum]; rw [overwrite_length (by omega)]; exact d

/-- Setting a slot to one with the same valid bit and key keeps the register file sound. -/
theorem RfWf.set_same {p : Params} {rf : List Slot} (h : RfWf p rf) {i : Nat} {r r' : Slot}
    (hi : rf[i]? = some r) (hw : r'.wf p) (hv : r'.valid = r.valid) (hk : r'.keyBytes = r.keyBytes) :
    RfWf p (rf.set i r') := by
  obtain ⟨a, b, c, d⟩ := h
  obtain ⟨hlt, rfl⟩ := List.getElem?_eq_some_iff.mp hi
  have g : ∀ j (hj : j < (rf.set i r').length),
      (rf.set i r')[j].valid = (rf[j]'(by simpa using hj)).valid ∧
      (rf.set i r')[j].keyBytes = (rf[j]'(by simpa using hj)).keyBytes := by
    intro j hj
    rw [List.getElem_set]
    split
    · rename_i e; subst e; exact ⟨hv, hk⟩
    · exact ⟨rfl, rfl⟩
  refine ⟨by simpa using a, ?_, ?_, ?_⟩
  · intro x hx
    rcases List.mem_or_eq_of_mem_set hx with hx | rfl
    · exact b x hx
    · exact hw
  · rw [UniqueKeys, List.pairwise_iff_getElem] at *
    intro j k hj hk' hjk
    rw [(g j hj).1, (g j hj).2, (g k hk').1, (g k hk').2]
    exact c j k _ _ hjk
  · rw [FilledFromZero, List.pairwise_iff_getElem] at *
    intro j k hj hk' hjk
    rw [(g j hj).1, (g k hk').1]
    exact d j k _ _ hjk

/-- APPLY keeps the register file sound (R26, R165). -/
theorem RfWf.applyEntry {p : Params} {s : State} {id sum} (h : RfWf p s.rf) (h1 : id.length ≤ p.keyMax) (h2 : sum.length ≤ p.summaryMax) :
    RfWf p (applyEntry id sum s).1.rf := by
  obtain ⟨i, hl, hf, he⟩ | ⟨-, -, he⟩ | ⟨i, r, hl, hr, -, he⟩ | ⟨i, r, -, -, -, he⟩ :=
    applyEntry_cases id sum s <;> rw [he]
  · simp only
    obtain ⟨r, hr, hv, hlo⟩ := freeSlot_some hf
    rw [modify_eq_set hr]
    obtain ⟨hlt, rfl⟩ := List.getElem?_eq_some_iff.mp hr
    have hn := (lookupKey_none_iff h id).mp hl
    obtain ⟨a, b, c, d⟩ := h
    have hkb : (Slot.create id sum s.rf[i]).keyBytes = id := by simp [Slot.keyBytes]
    have hup : ∀ k (hk : k < s.rf.length), i < k → s.rf[k].valid = false := by
      intro k hk hik
      cases hkv : s.rf[k].valid with
      | false => rfl
      | true => have := List.pairwise_iff_getElem.mp d i k hlt hk hik hkv; rw [hv] at this; cases this
    refine ⟨by simpa using a, ?_, ?_, ?_⟩
    · intro x hx
      rcases List.mem_or_eq_of_mem_set hx with hx | rfl
      · exact b x hx
      · exact Slot.create_wf (b _ (List.getElem_mem hlt)) h1 h2
    · rw [UniqueKeys, List.pairwise_iff_getElem] at *
      intro j k hj hk hjk
      simp only [List.length_set] at hj hk
      rw [List.getElem_set, List.getElem_set]
      by_cases e1 : i = j
      · have e2 : i ≠ k := by omega
        rw [if_pos e1, if_neg e2]
        intro _ hv2; have := hup k hk (by omega); rw [hv2] at this; cases this
      · rw [if_neg e1]
        split
        · intro hv1 _; rw [hkb]; exact hn _ (List.getElem_mem hj) hv1
        · exact c j k hj hk hjk
    · rw [FilledFromZero, List.pairwise_iff_getElem] at *
      intro j k hj hk hjk
      simp only [List.length_set] at hj hk
      rw [List.getElem_set, List.getElem_set]
      by_cases e1 : i = j
      · rw [if_pos e1]; intro _; rfl
      · rw [if_neg e1]
        split
        · rename_i e; subst e; intro _; exact hlo j s.rf[j] hjk (by simp [hj])
        · exact d j k hj hk hjk
  · exact h
  · simp only
    rw [modify_eq_set hr]
    obtain ⟨r', hr', hv, hk⟩ := (lookupKey_some_iff h id i).mp hl
    rw [hr] at hr'; injection hr' with hr'; subst hr'
    exact RfWf.set_same h hr (Slot.replace_wf (h.2.1 r (List.mem_of_getElem? hr)) hv h2) rfl rfl
  · exact h

/-- DRAIN keeps the register file sound. -/
theorem RfWf.drained {p : Params} {rf : List Slot} (h : RfWf p rf) :
    RfWf p (rf.map (fun r => if r.reported then r.clearChg else r)) := by
  obtain ⟨a, b, c, d⟩ := h
  have g : ∀ r : Slot,
      (if r.reported then r.clearChg else r).valid = r.valid ∧
      (if r.reported then r.clearChg else r).keyBytes = r.keyBytes := by
    intro r; split <;> exact ⟨rfl, rfl⟩
  refine ⟨by simpa using a, ?_, ?_, ?_⟩
  · intro x hx
    obtain ⟨r, hr, rfl⟩ := List.mem_map.mp hx
    obtain ⟨e1, e2, e3, e4, e5⟩ := b r hr
    split
    · exact ⟨e1, e2, e3, e4, by simp⟩
    · exact ⟨e1, e2, e3, e4, e5⟩
  · rw [UniqueKeys, List.pairwise_map]
    refine c.imp ?_
    intro x y hxy
    rw [(g x).1, (g x).2, (g y).1, (g y).2]; exact hxy
  · rw [FilledFromZero, List.pairwise_map]
    refine d.imp ?_
    intro x y hxy
    rw [(g x).1, (g y).1]; exact hxy

/-- The register file after reset is sound. -/
theorem RfWf.reset (p : Params) : RfWf p (List.replicate p.entries (Slot.reset p)) := by
  refine ⟨by simp, ?_, ?_, ?_⟩
  · intro r hr; rw [(List.mem_replicate.mp hr).2]; simp [Slot.wf, Slot.reset]
  · rw [UniqueKeys, List.pairwise_replicate]; right; simp [Slot.reset]
  · rw [FilledFromZero, List.pairwise_replicate]; right; simp [Slot.reset]

/-- Reset lists no payload buffer, so every listed memory of the state is canonical. -/
theorem reset_memory_wf : ∀ d, State.reset.decode = some d → d.buf.wf = true := by
  intro d hd; cases hd

end Sys2Proof.Machine
end

