-- ==== Sys2Proof/Tests/Slice0.lean ====
section
/-! SUPPORT. Tests: the well-formedness smoke test, words written out from the spec's encodings, the spec's own test
vectors (95_test_vectors.md) on single steps, and a witness for the hypotheses of every statement. -/

namespace Sys2Proof.Tests

open Sys2Proof.Machine Sys2Proof.Stmt

/-! ### Helpers -/

/-- What the ports carried. -/
def outs (r : Result) : List Output :=
  match r with
  | .next s => s.out
  | .fault _ => []
  | .refused _ => []

/-- The next state, if any. -/
def after (r : Result) : Option State :=
  match r with
  | .next s => some s
  | .fault _ => none
  | .refused _ => none

/-- The decode in progress after a step. -/
def going? (r : Result) : Option Datapath := (after r).bind State.decode

/-- The discovery of device `"d"` with `HDR(50)` and the record bytes `rs`. -/
def disc (rs : ByteString) : Discovery := ⟨[0x64], headerBytes 50 0 ++ rs, -70⟩

/-- Reset with one discovery queued and given to take. -/
def one (t : Discovery) : State := { State.reset with queue := [t], turns := [.take .discover] }

/-- The outputs of a discovery after reset. -/
def run (rs : ByteString) : List Output := outs (step (one (disc rs)))

/-- The summary in the NEW line of a discovery after reset. -/
def newSummary (rs : ByteString) : Option ByteString :=
  (run rs).findSome? (fun o => match o with
    | .log .new _ sum => some sum
    | _ => none)

/-- The status of a discovery after reset. -/
def status (rs : ByteString) : Option Output := (run rs).getLast?

/-- A decode whose record stream is `rs` (from offset 7), with the cursor at `cur`. -/
def dp (rs : ByteString) (cur : Nat) : Datapath := { placeRecord rs with cur := cur }

/-- A state inside such a decode. -/
def mid (rs : ByteString) (cur : Nat) : State := { State.reset with decode := some (dp rs cur) }

/-- A small build: keys of 2 bytes, payloads of 10, so summaries of 29. -/
def small : Params := { Config.params with keyMax := 2, maxPayload := 10 }

/-- A slot of that build holding a key and a summary. -/
def entry (id sum : ByteString) (chg : Bool) : Slot :=
  { Slot.create id sum (Slot.reset small) with chg := chg }

/-- Device `"a"` at `batt:50%`, unchanged; device `"b"` at `batt:11%`, changed; two free slots. -/
def known : State :=
  { State.resetOf small with
    rf := [entry [0x61] (battSegment 50) false, entry [0x62] (battSegment 11) true, Slot.reset small, Slot.reset small]
    tickPending := true, turns := [.take .tick] }

/-- Every slot taken. -/
def full : State :=
  { State.resetOf small with rf := [0x61, 0x62, 0x63, 0x64].map (fun k => entry [k] (battSegment 50) false) }

/-- Halted, with offers waiting. -/
def stopped : State :=
  { State.reset with halted := true, shutdownPending := true, offers := [disc []], turns := [.offer] }

/-- `"batt:50%"` and a continuation. -/
def batt50 (rest : ByteString) : ByteString := [0x62, 0x61, 0x74, 0x74, 0x3a, 0x35, 0x30, 0x25] ++ rest

/-- `" temp:25.0°C"`. -/
def temp25 : ByteString := [0x20, 0x74, 0x65, 0x6d, 0x70, 0x3a, 0x32, 0x35, 0x2e, 0x30, 0xc2, 0xb0, 0x43]

/-- `" light:true/3/1/1000"`. -/
def light1000 : ByteString :=
  [0x20, 0x6c, 0x69, 0x67, 0x68, 0x74, 0x3a, 0x74, 0x72, 0x75, 0x65, 0x2f, 0x33, 0x2f, 0x31, 0x2f, 0x31, 0x30, 0x30, 0x30]

/-- `" light:false/0/0/7"`. -/
def light7 : ByteString :=
  [0x20, 0x6c, 0x69, 0x67, 0x68, 0x74, 0x3a, 0x66, 0x61, 0x6c, 0x73, 0x65, 0x2f, 0x30, 0x2f, 0x30, 0x2f, 0x37]

/-! ### Well-formedness refuses -/

theorem test_wf_unknown_of_known_type :
    (Instr.unknown false 0x03).wf Config.params = false ∧ (Instr.unknown true 0x3f).wf Config.params = false := by
  decide

theorem test_wf_lookup_key_too_long : (Instr.lookup (List.replicate 9 0)).wf Config.params = false := by decide

theorem test_wf_apply_id_too_long : (Instr.apply (List.replicate 9 0) []).wf Config.params = false := by decide

theorem test_wf_apply_summary_too_long : (Instr.apply [] (List.replicate 30 0)).wf small = false := by decide

theorem test_wf_admits :
    (Instr.unknown false 0x10).wf Config.params = true ∧ (Instr.lookup (List.replicate 8 0)).wf Config.params = true ∧
    (Instr.apply (List.replicate 2 0) (List.replicate 29 0)).wf small = true := by decide

/-! ### Decoding words written out from the encodings (R71, R72, R75, R82) -/

theorem test_decode_hdr : decode .header [0b10000101, 0b00000000, 0b00000010, 0b00000000, 0b00111100, 0xff, 0x07] =
    .ok (.hdr, [0xff, 0x07]) := by decide
theorem test_decode_nop : decodeCtrl 0b10010000 = .nop true 0b010000 := by decide
theorem test_decode_motion : decodeCtrl 0b01000001 = .motion false := by decide
theorem test_decode_light : decodeCtrl 0b11000010 = .light true := by decide
theorem test_decode_light8 : decodeDesc 0b11101101 = .light8 true true 0b10 0b11 := by decide
theorem test_decode_light16 : decodeDesc 0b10110110 = .light16 true false 0b11 0b01 := by decide
theorem test_decode_lightBadLen0 : decodeDesc 0b00011000 = .lightBadLen0 false false 0b01 0b10 := by decide
theorem test_decode_lightBadLen3 : decodeDesc 0b01100011 = .lightBadLen3 false true 0b10 0b00 := by decide
theorem test_decode_temp : decodeCtrl 0b11000011 = .temp true := by decide
theorem test_decode_pair : decodeCtrl 0b01101111 = .pair false := by decide
theorem test_decode_enc : decodeCtrl 0b11111111 = .enc true := by decide
theorem test_decode_unknown : decodeCtrl 0b11010000 = .unknown true 0b010000 := by decide
theorem test_decode_events : decode .event [0b00] = .ok (.discover, []) ∧ decode .event [0b01] = .ok (.tick, []) ∧
    decode .event [0b10] = .ok (.shutdown, []) ∧ decode .event [0b11] = .error .reservedEvent := by decide
theorem test_decode_rejects : decode .header [0x85, 0x00, 0x02, 0x00, 0x3c, 0x32] = .error .short ∧
    decode .record [] = .error .empty := by decide
theorem test_decode_table_words : decodeTableWord 56 0x3c00020085 = some .hdr ∧
    decodeTableWord 2 1 = some .tick ∧ decodeTableWord 8 0xc3 = some (.temp true) := by decide

/-- The table words run as the next step after reset. -/
theorem test_withFetchWord_runs :
    (after (step (State.reset.withFetchWord 8 0x7f))).isSome = true ∧
    (after (step (State.reset.withFetchWord 2 1))).isSome = true ∧
    (going? (step (State.reset.withFetchWord 56 0x3c00020085))).map Datapath.cur = some 7 := by decide

/-! ### Numbers and texts (V-SUM, R10, R143) -/

theorem test_dec : dec 0 = [0x30] ∧ dec 50 = [0x35, 0x30] ∧ dec 65535 = [0x36, 0x35, 0x35, 0x33, 0x35] := by decide
theorem test_fmtTemp_positive : fmtTemp 402 = [0x32, 0x35, 0x2e, 0x31] ∧ fmtTemp 4 = [0x30, 0x2e, 0x32] ∧
    fmtTemp 12 = [0x30, 0x2e, 0x38] ∧ fmtTemp 32767 = [0x32, 0x30, 0x34, 0x37, 0x2e, 0x39] := by decide
theorem test_fmtTemp_negative : fmtTemp (-1) = [0x2d, 0x30, 0x2e, 0x31] ∧ fmtTemp (-4) = [0x2d, 0x30, 0x2e, 0x32] ∧
    fmtTemp (-32768) = [0x2d, 0x32, 0x30, 0x34, 0x38, 0x2e, 0x30] := by decide
theorem test_logLine : logLine .changed [0x64] (batt50 []) = [0x64, 0x3a, 0x20] ++ batt50 [] ∧
    logLine .new [0x64] [] = [0x64, 0x3a, 0x20, 0x6e, 0x65, 0x77, 0x3a, 0x20] := by decide
theorem test_status_numbers : [StatusCode.okNew, .okChanged, .okUnchanged, .tableFull, .notOursShort, .notOursMagic,
    .failTruncated, .failUnknownType, .failLightLen, .refusedKey, .refusedPayload, .drainDone, .halted].map
      StatusCode.num = List.range 13 := by decide

/-! ### Records, one discovery each (the examples of 41_records.md and 95_test_vectors.md) -/

theorem test_hdr_ok : newSummary [] = some (batt50 []) := by decide
theorem test_hdr_foreign : outs (step (one ⟨[0x64], [0x85, 0x00, 0x02, 0x00], 0⟩)) = [.status 0 .notOursShort 0] ∧
    outs (step (one ⟨[0x64], [1, 2, 3, 4, 5, 6, 7], 0⟩)) = [.status 0 .notOursMagic 0] := by decide
theorem test_nop_alert : newSummary [0x80, 0x55] = some (batt50 []) := by decide
theorem test_nop_3f : newSummary [0x3f, 0x43, 0x90, 0x01] = some (batt50 temp25) ∧
    (going? (exec (.nop false 0x3f) { mid [0x3f, 0x43] 8 with params := { Config.params with termUngated := true } })) =
      none := by decide
theorem test_motion : newSummary [0x41, 0x12, 0x34] = some (batt50 []) := by decide
theorem test_motion_short : status [0x41, 0x00] = some (.status 0 .failTruncated 8) := by decide
theorem test_light16 : newSummary [0x42, 0xb6, 0xe8, 0x03] = some (batt50 light1000) := by decide
theorem test_light_short : status [0x42] = some (.status 0 .failTruncated 8) ∧
    status [0x42, 0x02, 0xff] = some (.status 0 .failTruncated 9) := by decide
theorem test_light8 : newSummary [0x42, 0x41, 0x07] = some (batt50 light7) := by decide
theorem test_lightBadLen : status [0x42, 0x00] = some (.status 0 .failLightLen 0) ∧
    status [0x42, 0x03] = some (.status 0 .failLightLen 3) := by decide
theorem test_lightBadLen_legacy :
    (going? (exec (.lightBadLen3 false false 0 0) { mid [0x42, 0x03, 0x07] 9 with
      params := { Config.params with lightLenLegacy := true } })).map Datapath.lightVal = some 7 := by decide
theorem test_temp : newSummary [0x43, 0x90, 0x01] = some (batt50 temp25) := by decide
theorem test_temp_signed : (going? (exec (.temp false) (mid [0x43, 0xff, 0xff] 8))).map (fun d => d.tempRaw.toInt) =
    some (-1) := by decide
theorem test_pair : newSummary [0x6f, 0x00, 0x43, 0x90, 0x01] = some (batt50 temp25) ∧
    status [0x6f] = some (.status 0 .failTruncated 8) := by decide
theorem test_enc : newSummary [0x43, 0x90, 0x01, 0x7f, 0x10, 0xff] = some (batt50 temp25) ∧
    status [0xff] = some (.status 0 .failTruncated 8) := by decide
theorem test_unknown : status [0x50, 0x00, 0x00] = some (.status 0 .failUnknownType 0x10) ∧
    status [0xd0] = some (.status 0 .failTruncated 8) := by decide
theorem test_repeat : newSummary [0x43, 0x90, 0x01, 0x42, 0x01, 0x07, 0x43, 0x90, 0x01] =
    some (batt50 (temp25 ++ light7 ++ temp25)) := by decide

/-! ### Events (V-EV) -/

theorem test_discover_new : run [0x43, 0x90, 0x01] =
    [.gauge [0x64] .battery 50, .gauge [0x64] .temperature 400, .log .new [0x64] (batt50 temp25),
      .status 0 .okNew 0] := by decide
theorem test_discover_refused :
    outs (step (one ⟨List.replicate 9 0x31, List.replicate 33 0, 0⟩)) = [.status 0 .refusedKey 9] ∧
    outs (step (one ⟨[0x64], List.replicate 33 0, 0⟩)) = [.status 0 .refusedPayload 33] := by decide
theorem test_tick : outs (step known) = [.log .changed [0x62] (battSegment 11), .status 1 .drainDone 1] := by decide
theorem test_tick_idle : outs (step { State.reset with tickPending := true }) = [.status 1 .drainDone 0] := by decide
theorem test_shutdown : outs (step { State.reset with
    queue := [disc [], disc []], turns := [.take .shutdown], shutdownPending := true }) = [.status 2 .halted 2] := by decide
theorem test_halted_discards : (after (step stopped)).map (fun s => (s.offers, s.queue, s.out)) = some ([], [], []) := by
  decide
theorem test_offer_held : (after (step { State.reset with
    queue := List.replicate 16 (disc []), offers := [disc []], turns := [.offer] })).map (fun s => s.offers.length) = some 1 := by
  decide

/-! ### Register file (V-RF) -/

theorem test_lookup : (after (exec (.lookup [0x62]) known)).bind State.result = some (.lookup (some 1)) ∧
    (after (exec (.lookup []) known)).bind State.result = some (.lookup none) := by decide
theorem test_apply_full : (after (exec (.apply [0x65] (battSegment 70)) full)).bind State.result =
    some (.apply .tableFull) := by decide
theorem test_apply_changed : (after (exec (.apply [0x61] (battSegment 49)) known)).map
    (fun s => (s.rf.map Slot.chg, s.result)) = some ([true, true, false, false], some (.apply .okChanged)) := by decide
theorem test_drain : outs (exec .drain known) = [.log .changed [0x62] (battSegment 11)] := by decide

/-! ### Reset memory -/

theorem test_reset_lists_no_memory : State.reset.decode = none := by decide
theorem test_buffer_canonical : (Memory.ofBytes 0 [1, 2, 3]).wf = true ∧ Memory.wf [(1, 0), (0, 0)] = false := by decide

/-! ### Witnesses: a state and operands that meet the hypotheses of each statement, clause by clause -/

theorem known_rfWf : RfWf known.params known.rf := by
  simp only [RfWf, Slot.wf, UniqueKeys, FilledFromZero]; decide

theorem full_rfWf : RfWf full.params full.rf := by
  simp only [RfWf, Slot.wf, UniqueKeys, FilledFromZero]; decide

theorem known_inv : known.Inv :=
  ⟨by decide, known_rfWf, by decide, by decide, fun _ h => by cases h⟩

theorem dp_holds (rs : ByteString) (cur : Nat) : (dp rs cur).holds (headerBytes 0 0 ++ rs) :=
  ⟨rfl, by simp [dp, placeRecord, headerBytes, magic]; omega⟩

theorem witness_ResetInputClearsTheBlockSilently :
    { stopped with turns := [.assertReset] }.decode = none ∧
    { stopped with turns := [.assertReset] }.turns = .assertReset :: [] := ⟨rfl, rfl⟩

theorem witness_StepKeepsTheInvariant : known.Inv ∧ ∃ t, step known = .next t := ⟨known_inv, _, rfl⟩

theorem witness_EventsLeaveNoDecodeInProgress : known.decode = none ∧ ∃ t, step known = .next t := ⟨rfl, _, rfl⟩

theorem witness_ParametersNeverChange : ∃ t, step (mid [0x41, 0x00] 7) = .next t := ⟨_, rfl⟩

theorem witness_StepRunsTheRecordAtTheCursor : (mid [0x7f] 7).decode = some (dp [0x7f] 7) ∧
    (dp [0x7f] 7).phase = .record ∧ (dp [0x7f] 7).cur < (dp [0x7f] 7).len ∧
    (dp [0x7f] 7).buf.read (dp [0x7f] 7).cur = some 0x7f := by decide

theorem witness_StepRunsTheHeaderAndTheDescriptorRow : (placeHeader [0x85]).phase = .header ∧
    { dp [0x42, 0x01] 9 with phase := .light, desc := 0x01 }.phase = .light := by decide

theorem witness_StepTakesAnyEnabledEvent :
    (known.turns = .take .tick :: [] ∧ canTake .tick known = true) ∧
    (stopped.decode = none ∧ canTake .tick stopped = false) ∧
    (State.reset.turns = [] ∧ ∀ e, canTake e State.reset = false) ∧
    ({ known with turns := [] }.turns = [] ∧ ∃ e, canTake e { known with turns := [] } = true) :=
  ⟨by decide, by decide, ⟨rfl, fun e => by cases e <;> rfl⟩, rfl, .tick, rfl⟩

theorem witness_EndOfBufferFinishesTheDecode : (mid [] 7).decode = some (dp [] 7) ∧ (dp [] 7).phase = .record ∧
    (dp [] 7).cur = (dp [] 7).len := by decide

theorem witness_DecodingAnEncodedInstructionGivesItBack :
    (Instr.hdr.wf Config.params = true ∧ Instr.hdr.space = some .header ∧ 2 ≤ [0x32#8, 0x00#8].length) ∧
    ((Instr.unknown true 0x10).wf Config.params = true ∧ (Instr.unknown true 0x10).space = some .record) ∧
    ((Instr.light8 true true 3 3).wf Config.params = true ∧ (Instr.light8 true true 3 3).space = some .descriptor) ∧
    (Instr.tick.wf Config.params = true ∧ Instr.tick.space = some .event) := by decide

theorem witness_DecodedBytesAreTheEncoding : decode .record [0xff, 0x01] = .ok (.enc true, [0x01]) ∧
    decode .event [0x02] = .ok (.shutdown, []) := by decide

theorem witness_RecordLengthIsWhatTheRecordStepConsumes :
    (dp [0xc2, 0xaa, 0x02, 0x01, 0x02] 7).holds (headerBytes 0 0 ++ [0xc2, 0xaa, 0x02, 0x01, 0x02]) ∧
    (recLen Config.params [0xc2, 0xaa, 0x02, 0x01, 0x02] = .bytes 5 ∧ 7 + 5 ≤ (dp [0xc2, 0xaa, 0x02, 0x01, 0x02] 7).len) ∧
    (recLen Config.params [0x80] = .bytes 2 ∧ (dp [0x80] 7).len < 7 + 2) ∧
    (recLen Config.params [0x7f] = .terminal ∧ 7 + 1 + (hasAlert 0x7f).toNat ≤ (dp [0x7f] 7).len) ∧
    (recLen Config.params [0x42, 0x03] = .illegalLight 3) ∧ (recLen Config.params [0xd0, 0x00] = .illegalType 0x10) :=
  ⟨dp_holds _ _, by decide, by decide, by decide, by decide, by decide⟩

theorem witness_RheRoundsToNearestTiesToEven : 0 < 2 ∧ 2 * (5 - 2 * rhe 5 2).natAbs = 2 := by decide

theorem witness_SummaryNeverOverflowsItsSlot :
    ∃ d, decodeRun Config.params (latch default (disc [0x42, 0x31, 0xff])) = .finish d ∧
      (disc [0x42, 0x31, 0xff]).payload.length ≤ Config.params.maxPayload := ⟨_, rfl, by decide⟩

theorem witness_MemReadIsLittleEndianAndBounded : (dp [0x90, 0x01] 7).holds (headerBytes 0 0 ++ [0x90, 0x01]) ∧
    (headerBytes 0 0 ++ [0x90, 0x01])[8]? = some 0x01 ∧
    ((headerBytes 0 0 ++ [0x90, 0x01])[7]? = some 0x90 ∧ (headerBytes 0 0 ++ [0x90, 0x01])[7 + 1]? = some 0x01) ∧
    (headerBytes 0 0 ++ [0x90, 0x01]).length < 8 + 2 ∧ (headerBytes 0 0 ++ [0x90, 0x01]).length < 9 + 1 :=
  ⟨dp_holds _ _, by decide, by decide, by decide, by decide⟩

theorem witness_HeaderValidatorAcceptsExactlyOurPayloads :
    ((latch default ⟨[], List.replicate 6 0, 0⟩).holds (List.replicate 6 0) ∧ (List.replicate 6 (0#8)).length < 7) ∧
    (7 ≤ (List.replicate 7 (0#8)).length ∧ (List.replicate 7 (0#8)).take 5 ≠ [0x85, 0x00, 0x02, 0x00, 0x3c]) ∧
    headerBytes 0xff 0x07 = [0x85, 0x00, 0x02, 0x00, 0x3c] ++ 0xff :: 0x07 :: [] := by
  refine ⟨⟨⟨rfl, rfl⟩, by decide⟩, by decide, by decide⟩

theorem witness_AlertByteIsSkippedFirst : (mid [0xff] 8).decode = some (dp [0xff] 8) ∧
    (dp [0xff] 8).len < (dp [0xff] 8).cur + 1 ∧ (dp [0xff, 0x00] 8).cur + 1 ≤ (dp [0xff, 0x00] 8).len := by decide

theorem witness_NopRecordIsSkippedWhateverItsType : (mid [0xbf, 0x00] 8).decode = some (dp [0xbf, 0x00] 8) ∧
    (dp [0xbf, 0x00] 8).cur + true.toNat ≤ (dp [0xbf, 0x00] 8).len ∧
    ¬ ((mid [0xbf, 0x00] 8).params.termUngated = true ∧ (0x3f : BitVec 6) = 0x3f) ∧
    { mid [0xbf, 0x00] 8 with params := { Config.params with termUngated := true } }.params.termUngated = true := by
  decide

theorem witness_MotionAndPairSkipTheirPayload : (mid [0xc1, 0, 0, 0] 8).decode = some (dp [0xc1, 0, 0, 0] 8) ∧
    (dp [0xc1, 0, 0, 0] 8).cur + true.toNat + 2 ≤ (dp [0xc1, 0, 0, 0] 8).len ∧
    ((dp [0x41, 0] 8).cur + false.toNat ≤ (dp [0x41, 0] 8).len ∧ (dp [0x41, 0] 8).len < (dp [0x41, 0] 8).cur + false.toNat + 2) ∧
    (dp [0x6f, 0] 8).cur + false.toNat + 1 ≤ (dp [0x6f, 0] 8).len ∧
    (dp [0x6f] 8).len < (dp [0x6f] 8).cur + false.toNat + 1 := by decide

theorem witness_TempReadsASignedHalfword : (mid [0xc3, 0xaa, 0x90, 0x01] 8).decode = some (dp [0xc3, 0xaa, 0x90, 0x01] 8) ∧
    (dp [0xc3, 0xaa, 0x90, 0x01] 8).cur + true.toNat + 2 ≤ (dp [0xc3, 0xaa, 0x90, 0x01] 8).len ∧
    (dp [0xc3, 0xaa, 0x90, 0x01] 8).buf.read (8 + true.toNat) = some 0x90 ∧
    (dp [0xc3, 0xaa, 0x90, 0x01] 8).buf.read (8 + true.toNat + 1) = some 0x01 ∧
    (dp [0x43, 0x90] 8).len < (dp [0x43, 0x90] 8).cur + false.toNat + 2 := by decide

theorem witness_LightReadsDescriptorThenValue :
    ((dp [0x42] 8).len < 8 + 1 ∧ 8 ≤ (dp [0x42] 8).len) ∧
    ((dp [0x42, 0xb6, 0xe8, 0x03] 8).buf.read 8 = some 0xb6 ∧ lenCode 0xb6 = 2 ∧ 8 + 3 ≤ (dp [0x42, 0xb6, 0xe8, 0x03] 8).len ∧
      (dp [0x42, 0xb6, 0xe8, 0x03] 8).buf.read 9 = some 0xe8 ∧ (dp [0x42, 0xb6, 0xe8, 0x03] 8).buf.read 10 = some 0x03) ∧
    (lenCode 0x01 = 1 ∧ 8 + 2 ≤ (dp [0x42, 0x01, 0x07] 8).len ∧ (dp [0x42, 0x01, 0x07] 8).buf.read 9 = some 0x07) ∧
    (lenCode 0x03 ≠ 2 ∧ { mid [0x42, 0x03] 8 with params := { Config.params with lightLenLegacy := true } }.params.lightLenLegacy = true) ∧
    (lenCode 0x00 = 0 ∧ lenCode 0x03 = 3 ∧ (mid [0x42, 0x03] 8).params.lightLenLegacy = false) ∧
    (dp [0x42, 0x02, 0xff] 8).len < 8 + 3 ∧ (dp [0x42, 0x01] 8).len < 8 + 2 := by decide

theorem witness_DescriptorRowsTakeTheirValue : (mid [0x42, 0x01, 0x07] 9).decode = some (dp [0x42, 0x01, 0x07] 9) ∧
    ((dp [0x42, 0x01, 0x07] 9).cur + 1 ≤ (dp [0x42, 0x01, 0x07] 9).len ∧ (dp [0x42, 0x01, 0x07] 9).buf.read 9 = some 0x07) ∧
    ((dp [0x42, 0x02, 0xe8, 0x03] 9).cur + 2 ≤ (dp [0x42, 0x02, 0xe8, 0x03] 9).len ∧
      (dp [0x42, 0x02, 0xe8, 0x03] 9).buf.read 9 = some 0xe8 ∧ (dp [0x42, 0x02, 0xe8, 0x03] 9).buf.read (9 + 1) = some 0x03) ∧
    (mid [0x42, 0x00] 9).params.lightLenLegacy = false ∧ (dp [0x42, 0x01] 9).len < (dp [0x42, 0x01] 9).cur + 1 ∧
    (dp [0x42, 0x02, 0xff] 9).len < (dp [0x42, 0x02, 0xff] 9).cur + 2 ∧
    { mid [0x42, 0x00] 9 with params := { Config.params with lightLenLegacy := true } }.params.lightLenLegacy = true := by
  decide

theorem witness_EncEndsTheDecodeOk : (mid [0xff, 0x00, 0x50] 8).decode = some (dp [0xff, 0x00, 0x50] 8) ∧
    (dp [0xff, 0x00, 0x50] 8).cur + true.toNat ≤ (dp [0xff, 0x00, 0x50] 8).len := by decide

theorem witness_UnknownTypeFailsTheDecode : (mid [0x50] 8).decode = some (dp [0x50] 8) ∧
    (dp [0x50] 8).cur + false.toNat ≤ (dp [0x50] 8).len := by decide

theorem witness_DecoderRowsStopOutsideAnEvent : State.reset.decode = none := rfl

theorem witness_DiscoverIsTheRunOfItsMicroSteps :
    { known with queue := [⟨[0x61, 0x62], headerBytes 50 0 ++ [0x43, 0x90, 0x01], 0⟩] }.halted = false ∧ known.decode = none ∧
    [0x61#8, 0x62#8].length ≤ known.params.keyMax ∧
    (headerBytes 50 0 ++ [0x43, 0x90, 0x01]).length ≤ known.params.maxPayload := by decide

theorem witness_DecoderReadsBackTheNotation :
    (∀ x ∈ [(⟨some 0xaa, .temp 400⟩ : Rec), ⟨none, .nop 0x3f⟩], goesOn Config.params x) ∧
    ∃ alert junk, [0xff#8, 0x00#8, 0x50#8] = Rec.bytes ⟨alert, .enc⟩ ++ junk := by
  refine ⟨fun x hx => ?_, some 0x00, [0x50], by decide⟩
  simp only [List.mem_cons, List.not_mem_nil, or_false] at hx
  rcases hx with rfl | rfl <;> exact ⟨by decide, by decide⟩

theorem witness_DiscoverCompletesWithOneStatus : (one (disc [])).halted = false ∧ (one (disc [])).decode = none ∧
    (one (disc [])).queue = disc [] :: [] := by decide

theorem witness_OversizeDiscoveriesAreRefused :
    (one (disc [])).params.keyMax < (List.replicate 9 (0#8)).length ∧
    (List.replicate 8 (0#8)).length ≤ (one (disc [])).params.keyMax ∧
    (one (disc [])).params.maxPayload < (List.replicate 33 (0#8)).length := by decide

theorem witness_FailedDiscoveryLeavesOnlyAStatus :
    (disc [0x50]).id.length ≤ Config.params.keyMax ∧ (disc [0x50]).payload.length ≤ Config.params.maxPayload ∧
    decodeRun (one (disc [0x50])).params (latch (Config.unwritten (one (disc [0x50])).freeCount) (disc [0x50])) =
      .raised (.unknownType 0x10) := ⟨by decide, by decide, rfl⟩

theorem witness_OkDiscoveryEmitsGaugesThenApplies :
    (disc [0x43, 0x90, 0x01]).id.length ≤ Config.params.keyMax ∧
    (disc [0x43, 0x90, 0x01]).payload.length ≤ Config.params.maxPayload ∧
    ∃ d, decodeRun (one (disc [0x43, 0x90, 0x01])).params
      (latch (Config.unwritten (one (disc [0x43, 0x90, 0x01])).freeCount) (disc [0x43, 0x90, 0x01])) = .finish d :=
  ⟨by decide, by decide, _, rfl⟩

theorem witness_TickReportsAndClearsTheChangedSlots : known.halted = false ∧ known.decode = none ∧
    known.tickPending = true := by decide

theorem witness_ShutdownHaltsAndDiscards : { known with shutdownPending := true }.halted = false ∧
    { known with shutdownPending := true }.decode = none ∧ { known with shutdownPending := true }.shutdownPending = true := by
  decide

theorem witness_EventsNotEnabledWait : canTake .tick stopped = false ∧ canTake .discover State.reset = false ∧
    canTake .shutdown (mid [] 7) = false := by decide

theorem witness_HaltedBlockDoesNothingButReset : stopped.halted = true ∧ stopped.decode = none ∧
    stopped.turns.head? ≠ some .assertReset := by decide

theorem witness_EachEventEmitsExactlyOneStatus : canTake .tick known = true ∧ canTake .discover (one (disc [])) = true ∧
    canTake .shutdown { known with shutdownPending := true } = true := by decide

theorem witness_OffersAreTakenHeldOrDiscarded :
    (stopped.decode = none ∧ stopped.turns = .offer :: [] ∧ stopped.offers = disc [] :: [] ∧ stopped.halted = true) ∧
    ({ State.reset with queue := List.replicate 15 (disc []) }.queue.length < State.reset.params.queueDepth) ∧
    (State.reset.params.queueDepth ≤ { State.reset with queue := List.replicate 16 (disc []) }.queue.length) := by decide

theorem witness_AssertionsSetTheirFlagUnlessHalted :
    { known with turns := [.assertTick] }.turns = .assertTick :: [] ∧
    { stopped with turns := [.assertShutdown] }.turns = .assertShutdown :: [] ∧ known.decode = none ∧
    stopped.decode = none := by decide

theorem witness_LookupHitsExactlyTheSlotWithTheKey : RfWf known.params known.rf := known_rfWf

theorem witness_ApplyOfAnUnknownIdCreatesAnEntry :
    [0x65#8].length ≤ known.params.keyMax ∧ (battSegment 70).length ≤ known.params.summaryMax ∧
    RfWf known.params known.rf ∧ (∀ x ∈ known.rf, x.valid = true → x.keyBytes ≠ [0x65#8]) ∧
    (∃ r, known.rf[2]? = some r ∧ r.valid = false) ∧
    (∀ j x, j < 2 → known.rf[j]? = some x → x.valid = true) := by
  refine ⟨by decide, by decide, known_rfWf, by decide, ⟨_, rfl, rfl⟩, fun j x hj hx => ?_⟩
  match j, hj with
  | 0, _ => injection hx with hx; rw [← hx]; rfl
  | 1, _ => injection hx with hx; rw [← hx]; rfl

theorem witness_ApplyOfADifferentSummaryMarksTheEntry : RfWf known.params known.rf ∧
    ∃ r, known.rf[0]? = some r ∧ r.valid = true ∧ r.keyBytes = [0x61] ∧ r.sumBytes ≠ battSegment 49 :=
  ⟨known_rfWf, _, rfl, by decide, by decide, by decide⟩

theorem witness_ApplyOfTheStoredSummaryWritesNothing : RfWf known.params known.rf ∧
    ∃ r, known.rf[1]? = some r ∧ r.valid = true ∧ r.keyBytes = [0x62] ∧ r.sumBytes = battSegment 11 :=
  ⟨known_rfWf, _, rfl, by decide, by decide, by decide⟩

theorem witness_ApplyToAFullTableWritesNothing : RfWf full.params full.rf ∧
    ∀ x ∈ full.rf, x.valid = true ∧ x.keyBytes ≠ [0x65] := ⟨full_rfWf, by decide⟩

theorem witness_ApplyWithOversizeOperandsStops : State.reset.params.keyMax < (List.replicate 9 (0#8)).length ∧
    known.params.summaryMax < (List.replicate 30 (0#8)).length := by decide

theorem witness_ApplyingTwiceIsUnchanged : RfWf known.params known.rf ∧
    ∃ t, exec (.apply [0x61] (battSegment 49)) known = .next t ∧ t.result ≠ some (.apply .tableFull) :=
  ⟨known_rfWf, _, rfl, by decide⟩

theorem witness_ChangeBackIsStillReported : RfWf known.params known.rf ∧
    (∃ r, known.rf[0]? = some r ∧ r.valid = true ∧ r.keyBytes = [0x61] ∧ r.sumBytes = battSegment 50) ∧
    battSegment 50 ≠ battSegment 49 ∧
    ∃ t u v, exec (.apply [0x61] (battSegment 49)) known = .next t ∧ exec (.apply [0x61] (battSegment 50)) t = .next u ∧
      exec .drain u = .next v :=
  ⟨known_rfWf, ⟨_, rfl, by decide, by decide, by decide⟩, by decide, _, _, _, rfl, rfl, rfl⟩

theorem witness_EntriesAreNeverRemovedOrRenamed : noResetNext known ∧ (∃ t, step known = .next t) ∧
    ∃ r, known.rf[1]? = some r ∧ r.valid = true :=
  ⟨fun _ => by decide, ⟨_, rfl⟩, _, rfl, rfl⟩

theorem witness_ChangedFlagsHaveTheirTwoWriters : noResetNext known ∧
    ∃ t r r', step known = .next t ∧ known.rf[1]? = some r ∧ t.rf[1]? = some r' ∧ r.valid = true ∧ r.chg = true ∧
      r'.chg = false :=
  ⟨fun _ => by decide, _, _, _, rfl, rfl, rfl, rfl, rfl, rfl⟩

theorem witness_NewLinesAreOnlyForUnknownDevices :
    { known with queue := [disc []], turns := [.take .discover] }.Inv ∧
    ∃ t l, step { known with queue := [disc []], turns := [.take .discover] } = .next t ∧
      t.out = { known with queue := [disc []], turns := [.take .discover] }.out ++ l ∧
      .log .new [0x64] (battSegment 50) ∈ l :=
  ⟨⟨by decide, known_rfWf, by decide, by decide, fun _ h => by cases h⟩,
    _, [.gauge [0x64] .battery 50, .log .new [0x64] (battSegment 50), .status 0 .okNew 0], rfl, rfl, by decide⟩

/-- R168's other writer: a change marks the entry. -/
theorem witness_ChangedFlagsHaveTheirTwoWriters_set :
    ∃ t r r', step { full with queue := [⟨[0x61], headerBytes 49 0, 0⟩], turns := [.take .discover] } = .next t ∧
      full.rf[0]? = some r ∧ t.rf[0]? = some r' ∧ r.valid = true ∧ r.chg = false ∧ r'.chg = true :=
  ⟨_, _, _, rfl, rfl, rfl, rfl, rfl, rfl⟩

end Sys2Proof.Tests
end

section
/-! PROOFS. The parameters (00_scope.md R4): no step changes them. -/

namespace Sys2Proof.Machine

/-! ### What each part of a step does to the parameters -/

@[simp] theorem State.settled_params (r : Micro) (s : State) : (settle r s).params = s.params := (settle_keeps r s).1

@[simp] theorem inputOffer_params (s : State) : (inputOffer s).params = s.params := by
  unfold inputOffer
  cases s.offers with
  | nil => rfl
  | cons t rest => simp only; split <;> [rfl; split <;> rfl]

@[simp] theorem inputTick_params (s : State) : (inputTick s).params = s.params := by
  unfold inputTick; split <;> rfl

@[simp] theorem inputShutdown_params (s : State) : (inputShutdown s).params = s.params := by
  unfold inputShutdown; split <;> rfl

@[simp] theorem inputReset_params (s : State) : (inputReset s).params = s.params := rfl

/-- A refused triple emits a status record, an admitted one settles its decode. -/
@[simp] theorem discoverTriple_params (t : Discovery) (s : State) : (discoverTriple t s).params = s.params := by
  obtain ⟨-, h⟩ | ⟨-, -, h⟩ | ⟨-, -, h⟩ := discoverTriple_cases t s <;> simp [h]

/-- Settles O7: inside a decode a step settles a micro-step; between events it is one of the cases of
`step_idle_cases`. -/
theorem parametersNeverChange : Obligations.ParametersNeverChange := by
  intro s t hs
  cases hd : s.decode with
  | some d =>
    rw [step_decode hd] at hs
    injection hs with hs
    rw [← hs, State.settled_params]
  | none =>
    obtain ⟨ts, rfl⟩ | ⟨ts, rfl⟩ | ⟨ts, rfl⟩ | ⟨ts, rfl⟩ | ⟨ts, -, rfl⟩ | ⟨ts, n, tr, rest, -, -, rfl⟩ |
      ⟨ts, n, -, -, rfl⟩ | ⟨ts, n, -, -, rfl⟩ := step_idle_cases hd hs <;> simp

end Sys2Proof.Machine
end

section
/-! PROOFS. Numbers: decimal text (00_scope.md R10) and rounding (R7, R143). -/

namespace Sys2Proof.Machine

/-! ### Decimal text -/

/-- The number a decimal text spells, its most significant digit first. -/
def readDecimal (bs : ByteString) : Nat := bs.foldl (fun acc b => 10 * acc + (b.toNat - 0x30)) 0

theorem readDecimal_concat (bs : ByteString) (b : Byte) :
    readDecimal (bs ++ [b]) = 10 * readDecimal bs + (b.toNat - 0x30) := by
  simp [readDecimal, List.foldl_append]

theorem digit_toNat {n : Nat} (h : n < 10) : (digit n).toNat = 0x30 + n := by
  simp only [digit, BitVec.toNat_ofNat]; omega

theorem digit_ne_zero {n : Nat} (h0 : 0 < n) (h : n < 10) : digit n ≠ 0x30 := by
  intro he
  have hn : 0x30 + n = 0x30 := (digit_toNat h).symm.trans (congrArg BitVec.toNat he)
  omega

/-- What holds of every one-digit text, and carries over from the text of a positive number to that text with one more
digit, holds of every decimal text. -/
theorem dec_induction {P : Nat → ByteString → Prop} (one : ∀ n, n < 10 → P n [digit n])
    (more : ∀ n r, 0 < n → r < 10 → P n (dec n) → P (10 * n + r) (dec n ++ [digit r])) (n : Nat) : P n (dec n) := by
  induction n using Nat.strongRecOn with
  | ind n ih =>
    by_cases h : n < 10
    · rw [dec_small h]; exact one n h
    · have hm := more (n / 10) (n % 10) (by omega) (Nat.mod_lt _ (by decide)) (ih (n / 10) (by omega))
      rw [Nat.div_add_mod] at hm
      rw [dec_eq, if_neg h]
      exact hm

theorem readDecimal_dec (n : Nat) : readDecimal (dec n) = n := by
  refine dec_induction (P := fun n bs => readDecimal bs = n) (fun n h => ?_) (fun n r _ hr ih => ?_) n
  · simp [readDecimal, digit_toNat h]
  · rw [readDecimal_concat, ih, digit_toNat hr]; omega

theorem dec_digits (n : Nat) : ∀ b ∈ dec n, 0x30 ≤ b.toNat ∧ b.toNat ≤ 0x39 := by
  have range : ∀ r, r < 10 → 0x30 ≤ (digit r).toNat ∧ (digit r).toNat ≤ 0x39 := by
    intro r hr; rw [digit_toNat hr]; omega
  refine dec_induction (P := fun _ bs => ∀ b ∈ bs, 0x30 ≤ b.toNat ∧ b.toNat ≤ 0x39) (fun n h b hb => ?_)
    (fun n r _ hr ih b hb => ?_) n
  · rw [List.mem_singleton.mp hb]; exact range n h
  · obtain hb | hb := List.mem_append.mp hb
    · exact ih b hb
    · rw [List.mem_singleton.mp hb]; exact range r hr

/-- The text of a positive number begins with another digit than `0`: the digits added later stand behind it. -/
theorem dec_no_leading_zero {n : Nat} (h0 : 0 < n) : ∃ b rest, dec n = b :: rest ∧ b ≠ 0x30 := by
  refine dec_induction (P := fun n bs => 0 < n → ∃ b rest, bs = b :: rest ∧ b ≠ 0x30) (fun n h h0 => ?_)
    (fun n r hn _ ih _ => ?_) n h0
  · exact ⟨_, _, rfl, digit_ne_zero h0 h⟩
  · obtain ⟨b, rest, hb, hne⟩ := ih hn
    exact ⟨b, rest ++ [digit r], by rw [hb, List.cons_append], hne⟩

/-- Settles O17: each part by `dec_induction`. -/
theorem decIsTheShortestDecimalText : Obligations.DecIsTheShortestDecimalText := by
  intro n
  refine ⟨readDecimal_dec n, dec_digits n, ?_⟩
  obtain rfl | h0 := Nat.eq_zero_or_pos n
  · exact .inl (dec_small (by decide))
  · exact .inr (dec_no_leading_zero h0)

/-! ### Rounding -/

/-- `rhe(p/q)` is the quotient when twice the remainder is at most `q`, the quotient plus one when it is at least `q`,
and even when it is `q` (R7). -/
theorem rhe_cases (p : Int) (q : Nat) :
    (rhe p q = p / q ∧ 2 * (p % q) ≤ q ∧ (2 * (p % q) = q → rhe p q % 2 = 0)) ∨
    (rhe p q = p / q + 1 ∧ (q : Int) ≤ 2 * (p % q) ∧ (2 * (p % q) = q → rhe p q % 2 = 0)) := by
  by_cases hlt : 2 * (p % q) < q
  · have hf : rhe p q = p / q := by simp only [rhe, if_pos hlt]
    exact .inl ⟨hf, by omega, by omega⟩
  · by_cases htie : 2 * (p % q) = q
    · by_cases heven : p / q % 2 = 0
      · have hf : rhe p q = p / q := by simp only [rhe, if_neg hlt, if_pos htie, if_pos heven]
        exact .inl ⟨hf, by omega, by omega⟩
      · have hf : rhe p q = p / q + 1 := by simp only [rhe, if_neg hlt, if_pos htie, if_neg heven]
        exact .inr ⟨hf, by omega, by omega⟩
    · have hf : rhe p q = p / q + 1 := by simp only [rhe, if_neg hlt, if_neg htie]
      exact .inr ⟨hf, by omega, by omega⟩

/-- Settles O18: the difference from `p/q` is the remainder, or the remainder less `q`. -/
theorem rheRoundsToNearestTiesToEven : Obligations.RheRoundsToNearestTiesToEven := by
  intro p q hq
  have hr0 : 0 ≤ p % q := Int.emod_nonneg p (by omega)
  have hrq : p % q < q := Int.emod_lt_of_pos p (by omega)
  have hdiv := Int.mul_ediv_add_emod p q
  obtain ⟨hrhe, hhalf, heven⟩ | ⟨hrhe, hhalf, heven⟩ := rhe_cases p q
  · have hdiff : p - q * rhe p q = p % q := by rw [hrhe]; omega
    rw [hdiff]; exact ⟨by omega, fun h => heven (by omega)⟩
  · have hdiff : p - q * rhe p q = p % q - q := by rw [hrhe, mul_add, mul_one]; omega
    rw [hdiff]; exact ⟨by omega, fun h => heven (by omega)⟩

end Sys2Proof.Machine
end

section
/-! PROOFS. The atomic DISCOVER is the run of its micro-steps (00_scope.md R11, 44_events.md R182). -/

namespace Sys2Proof.Machine

open Sys2Proof.Stmt

/-! ### Runs inside a decode -/

/-- Settling a micro-step of a decode in progress forgets the datapath it started from. -/
theorem settle_going (r : Micro) (s : State) (d : Datapath) : settle r (going s d) = settle r s :=
  settle_decode r s (some d)

/-- The first step of a run inside a decode settles one micro-step. -/
theorem run_succ_going (n : Nat) (s : State) (d : Datapath) :
    Host.Core.run core (n + 1) (going s d) = Host.Core.run core n (settle (microStep s.params d) s) := by
  have hstep : core.step (going s d) = .next (settle (microStep s.params d) s) := by
    rw [← settle_going _ s d]; exact step_decode rfl
  simp only [Host.Core.run, hstep]

/-- The record loop is the run of its records: at most one step per iteration it may take. -/
theorem run_rloop (s : State) (fuel : Nat) (d : Datapath) (hp : d.phase = .record) :
    ∃ n, n ≤ fuel ∧ Host.Core.run core n (going s d) = .next (settle (rloop s.params fuel d) s) := by
  induction fuel generalizing d with
  | zero => exact ⟨0, Nat.le_refl 0, rfl⟩
  | succ fuel ih =>
    have hstep : microStep s.params d = recordStep s.params d := by simp only [microStep, hp]
    have hrec := endsAtRecord_recordStep s.params d hp
    simp only [rloop]
    cases hr : recordStep s.params d with
    | raised c => exact ⟨1, by omega, by rw [run_succ_going, hstep, hr]; rfl⟩
    | finish e => exact ⟨1, by omega, by rw [run_succ_going, hstep, hr]; rfl⟩
    | cont e =>
      rw [hr] at hrec
      obtain ⟨n, hn, hrun⟩ := ih e hrec
      exact ⟨n + 1, by omega, by rw [run_succ_going, hstep, hr]; exact hrun⟩

/-- A decode about to validate its header is the run of its micro-steps: the header, then the record loop. -/
theorem run_decodeRun (s : State) (d : Datapath) (hp : d.phase = .header) :
    ∃ n, n ≤ d.len + 2 ∧ Host.Core.run core n (going s d) = .next (settle (decodeRun s.params d) s) := by
  have hstep : microStep s.params d = hdrchk d := by simp only [microStep, hp]
  unfold decodeRun
  obtain ⟨c, hc⟩ | ⟨-, b, -, hc⟩ := hdrchk_cases d
  · exact ⟨1, by omega, by rw [run_succ_going, hstep, hc]; rfl⟩
  · rw [hc]
    obtain ⟨n, hn, hrun⟩ := run_rloop s (d.len + 1) { d with
      phase := .record, batt := b, cur := 7, tempV := false, lightV := false, summary := battSegment b } rfl
    exact ⟨n + 1, by omega, by rw [run_succ_going, hstep, hc]; exact hrun⟩

/-! ### DISCOVER -/

/-- An enabled DISCOVER works on the triple at the head of `Q` (R182). -/
theorem exec_discover_head {s : State} {t : Discovery} {rest : List Discovery} (hh : s.halted = false)
    (hd : s.decode = none) (hq : s.queue = t :: rest) :
    exec .discover s = .next (discoverTriple t { s with queue := rest }) := by
  have hc : canTake .discover s = true := (canTake_iff _ s).mpr ⟨hh, hd, by simp [pending, hq]⟩
  simp only [exec, execDiscover, if_pos hc, hq]

/-- A triple that is not refused is latched, and the whole decode settled (R182, R183, R184). -/
theorem discoverTriple_admitted {t : Discovery} {s : State} (hid : t.id.length ≤ s.params.keyMax)
    (hpay : t.payload.length ≤ s.params.maxPayload) :
    discoverTriple t s = settle (decodeRun s.params (latch (Config.unwritten s.freeCount) t))
      { s with freeCount := s.freeCount + 1 } := by
  obtain ⟨h, -⟩ | ⟨-, h, -⟩ | ⟨-, -, h⟩ := discoverTriple_cases t s
  · omega
  · omega
  · exact h

/-- Settles O36: the latch is a decode about to validate its header, and DISCOVER settles that decode. -/
theorem discoverIsTheRunOfItsMicroSteps : Obligations.DiscoverIsTheRunOfItsMicroSteps := by
  refine ⟨fun s free t => run_decodeRun s (latch free t) rfl, fun s t rest hh hd hq hid hpay => ?_⟩
  obtain ⟨n, hn, hrun⟩ := run_decodeRun { s with queue := rest, freeCount := s.freeCount + 1 }
    (latch (Config.unwritten s.freeCount) t) rfl
  exact ⟨n, _, hn, (exec_discover_head hh hd hq).trans (congrArg _ (discoverTriple_admitted hid hpay)), hrun⟩

end Sys2Proof.Machine
end


section
/-! PROOFS. The invariant of the block: reset meets it and every step keeps it (10_state.md). -/

namespace Sys2Proof.Machine

/-! ### Reset -/

/-- Settles O1: the slots are copies of one reset slot, every other field is a literal. -/
theorem resetLeavesTheBlockEmptyAndIdle : Obligations.ResetLeavesTheBlockEmptyAndIdle := by
  refine ⟨List.length_replicate, fun r hr => ?_, rfl, rfl, rfl, rfl, rfl⟩
  rw [List.eq_of_mem_replicate hr]
  exact ⟨rfl, rfl⟩

/-- Outside the halted state the invariant asks nothing of the flags. -/
theorem State.Inv.of_running {s : State} (hp : s.params.wf) (hrf : RfWf s.params s.rf)
    (hq : s.queue.length ≤ s.params.queueDepth) (hh : s.halted = false)
    (hd : ∀ d, s.decode = some d → d.wf s.params) : s.Inv :=
  ⟨hp, hrf, hq, fun h => (by simp [hh] at h), hd⟩

/-- The reset values meet the invariant in every build that R4 admits. -/
theorem resetOf_inv {p : Params} (hp : p.wf) : (State.resetOf p).Inv :=
  .of_running hp (RfWf.reset p) (Nat.zero_le _) rfl (fun _ h => by cases h)

/-- Settles O3: the build of `State.reset` has parameters within their ranges. -/
theorem resetStateMeetsTheInvariant : Obligations.ResetStateMeetsTheInvariant := resetOf_inv (by decide)

/-! ### Inputs -/

/-- An assertion of the tick input sets the flag unless the block is halted (R188, R190). -/
theorem inputTick_eq (s : State) : inputTick s = { s with tickPending := s.tickPending || !s.halted } := by
  unfold inputTick
  split
  next hh => apply State.ext <;> simp [hh]
  next hh => simp [hh]

/-- An assertion of the shutdown input sets the flag unless the block is halted (R29, R190). -/
theorem inputShutdown_eq (s : State) :
    inputShutdown s = { s with shutdownPending := s.shutdownPending || !s.halted } := by
  unfold inputShutdown
  split
  next hh => apply State.ext <;> simp [hh]
  next hh => simp [hh]

/-- An offer is not there or held, taken and discarded, or appended to `Q` where there is room (R181, R190). -/
theorem inputOffer_cases (s : State) :
    inputOffer s = s ∨ (∃ rest, inputOffer s = { s with offers := rest }) ∨
    (∃ t rest, s.halted = false ∧ s.queue.length < s.params.queueDepth ∧
      inputOffer s = { s with offers := rest, queue := s.queue ++ [t] }) := by
  unfold inputOffer
  cases s.offers with
  | nil => exact .inl rfl
  | cons t rest =>
    simp only
    by_cases hh : s.halted = true
    · exact .inr (.inl ⟨rest, by rw [if_pos hh]⟩)
    · by_cases hroom : s.queue.length < s.params.queueDepth
      · exact .inr (.inr ⟨t, rest, by simpa using hh, hroom, by rw [if_neg hh, if_pos hroom]⟩)
      · exact .inl (by rw [if_neg hh, if_neg hroom])

/-- Settles O48: the turn is the step, and the two inputs are what `inputTick_eq` and `inputShutdown_eq` say. -/
theorem assertionsSetTheirFlagUnlessHalted : Obligations.AssertionsSetTheirFlagUnlessHalted := by
  intro s rest hd
  refine ⟨fun ht => ?_, fun ht => ?_⟩
  · simp only [step, fetch, hd, fetchTurn, ht, inputTick_eq]
  · simp only [step, fetch, hd, fetchTurn, ht, inputShutdown_eq]

/-- Until the block is halted the pending flags are free. -/
theorem State.Inv.set_flags {s : State} (hi : s.Inv) (hh : s.halted = false) (tick shutdown : Bool) :
    State.Inv { s with tickPending := tick, shutdownPending := shutdown } := by
  obtain ⟨hp, hrf, hq, -, hd⟩ := hi
  exact .of_running hp hrf hq hh hd

theorem inputTick_inv {s : State} (hi : s.Inv) : (inputTick s).Inv := by
  unfold inputTick
  split
  · exact hi
  next hh => exact hi.set_flags (by simpa using hh) true s.shutdownPending

theorem inputShutdown_inv {s : State} (hi : s.Inv) : (inputShutdown s).Inv := by
  unfold inputShutdown
  split
  · exact hi
  next hh => exact hi.set_flags (by simpa using hh) s.tickPending true

/-- An offer is appended only where `Q` has room (R30). -/
theorem inputOffer_inv {s : State} (hi : s.Inv) : (inputOffer s).Inv := by
  obtain h | ⟨rest, h⟩ | ⟨t, rest, hh, hroom, h⟩ := inputOffer_cases s <;> rw [h]
  · exact hi
  · exact hi
  · obtain ⟨hp, hrf, -, -, hd⟩ := hi
    exact .of_running hp hrf (by simpa using hroom) hh hd

theorem inputOffer_decode (s : State) : (inputOffer s).decode = s.decode := by
  obtain h | ⟨rest, h⟩ | ⟨t, rest, -, -, h⟩ := inputOffer_cases s <;> rw [h]

/-! ### The end of a micro-step -/

/-- What the end of a micro-step, or of a whole decode, owes the invariant: a datapath that goes on is sound, and the
operands that `finish Ok` hands to APPLY fit a slot. -/
def Micro.Sound (p : Params) : Micro → Prop
  | .cont d => d.wf p
  | .finish d => d.id.length ≤ p.keyMax ∧ d.summary.length ≤ p.summaryMax
  | .raised _ => True

@[simp] theorem settle_cont_decode (d : Datapath) (s : State) : (settle (.cont d) s).decode = some d := rfl

@[simp] theorem settle_finish_decode (d : Datapath) (s : State) : (settle (.finish d) s).decode = none := by
  simp [settle, finishOk_eq]

@[simp] theorem settle_raised_decode (c : Cause) (s : State) : (settle (.raised c) s).decode = none := rfl

/-- Only `finish Ok` writes the register file, through APPLY. -/
theorem settle_rfWf {p : Params} {r : Micro} {s : State} (h : RfWf p s.rf) (hr : r.Sound p) :
    RfWf p (settle r s).rf := by
  cases r with
  | cont d => exact h
  | raised c => exact h
  | finish d => simpa only [settle, finishOk_eq] using h.applyEntry hr.1 hr.2

/-- A sound end of a micro-step keeps the invariant. -/
theorem settle_inv {r : Micro} {s : State} (hi : s.Inv) (hh : s.halted = false) (hr : r.Sound s.params) :
    (settle r s).Inv := by
  obtain ⟨hp, hrf, hq, -, -⟩ := hi
  obtain ⟨kp, kh, -, -, kq, -⟩ := settle_keeps r s
  refine .of_running (by rwa [kp]) (by rw [kp]; exact settle_rfWf hrf hr) (by rwa [kp, kq]) (by rwa [kh]) fun d hd => ?_
  rw [kp]
  cases r with
  | cont e => cases hd; exact hr
  | finish e => simp at hd
  | raised c => simp at hd

/-! ### Micro-steps end soundly -/

/-- A summary within the bound for the bytes consumed fits a slot (R146, R4). -/
theorem summary_fits {p : Params} {n cur : Nat} (hn : 3 * n ≤ 27 + 20 * (cur - 7)) (hc : cur ≤ p.maxPayload) :
    n ≤ p.summaryMax := by
  unfold Params.summaryMax; omega

theorem endsAtRecord_lightValue (n : Nat) (ir : Bool) (res rng : BitVec 2) (d : Datapath) :
    EndsAtRecord (lightValue n ir res rng d) := by
  unfold lightValue; split <;> trivial

theorem endsAtRecord_descStep (p : Params) (d : Datapath) : EndsAtRecord (descStep p d) := by
  unfold descStep lightByLen lightBadLen
  split
  · exact endsAtRecord_lightValue ..
  · split
    · exact endsAtRecord_lightValue ..
    · split
      · exact endsAtRecord_lightValue ..
      · trivial

/-- A micro-step of a sound datapath that moves the cursor on from 7 or later, and whose summary has room for `k` more
thirds of a byte, ends soundly. -/
theorem MicroMoved.sound {p : Params} {k : Nat} {d : Datapath} {r : Micro} (hm : MicroMoved k d r) (hw : d.wf p)
    (hr : EndsAtRecord r) (h7 : 7 ≤ d.cur) (hs : 3 * d.summary.length + k ≤ 27 + 20 * (d.cur - 7)) : r.Sound p := by
  obtain ⟨hid, hbuf, hlen, hcur, -⟩ := hw
  have bounds : ∀ e, Moved k d e →
      e.id.length ≤ p.keyMax ∧ e.cur ≤ d.len ∧ 7 ≤ e.cur ∧ 3 * e.summary.length ≤ 27 + 20 * (e.cur - 7) := by
    intro e h
    have hfwd := h.cur
    have hsum := h.sum
    exact ⟨h.id ▸ hid, h.within hcur, by omega, by omega⟩
  cases r with
  | raised c => trivial
  | finish e =>
    obtain ⟨hid', hcur', -, hsum'⟩ := bounds e hm
    exact ⟨hid', summary_fits hsum' (hcur'.trans hlen)⟩
  | cont e =>
    obtain ⟨hid', hcur', h7', hsum'⟩ := bounds e hm
    have hphase : e.phase = .record := hr
    simp only [Micro.Sound, Datapath.wf, Datapath.holds, hm.buf, hm.len, hphase]
    exact ⟨hid', hbuf, hlen, hcur', h7', hsum'⟩

/-- The header validator leaves a sound datapath: the cursor at 7 and the battery segment as the summary. -/
theorem hdrchk_sound {p : Params} {d : Datapath} (hw : d.wf p) : (hdrchk d).Sound p := by
  obtain ⟨hid, hbuf, hlen, -, -⟩ := hw
  obtain ⟨c, hc⟩ | ⟨h7, b, -, hc⟩ := hdrchk_cases d
  · rw [hc]; trivial
  · have hseg := battSegment_length_le b
    rw [hc]
    exact ⟨hid, hbuf, hlen, h7, Nat.le_refl 7, by simp only; omega⟩

/-- Every micro-step of a sound datapath ends soundly. -/
theorem microStep_sound {p : Params} {d : Datapath} (hw : d.wf p) : (microStep p d).Sound p := by
  have ⟨_, _, _, _, hphase⟩ := hw
  unfold microStep
  cases hp : d.phase with
  | header => exact hdrchk_sound hw
  | record =>
    simp only [hp] at hphase
    obtain ⟨h7, hs⟩ := hphase
    exact (microMoved_recordStep p d).sound hw (endsAtRecord_recordStep p d hp) h7 hs
  | light =>
    simp only [hp] at hphase
    obtain ⟨h9, hs⟩ := hphase
    exact (microMoved_lightByLen p _ _ _ _ d).sound hw (endsAtRecord_descStep p d) (by omega) (by omega)

/-- The whole decode of a payload the block accepts ends soundly. -/
theorem decodeRun_sound {p : Params} {t : Discovery} (free : Unwritten) (hid : t.id.length ≤ p.keyMax)
    (hpay : t.payload.length ≤ p.maxPayload) : (decodeRun p (latch free t)).Sound p := by
  obtain ⟨c, hc⟩ | ⟨e, he, hide, -, hsum⟩ := decodeRun_ends p (latch free t)
  · rw [hc]; trivial
  · rw [he]
    exact ⟨hide ▸ hid, summary_fits hsum hpay⟩

/-! ### Events -/

theorem discoverTriple_inv {t : Discovery} {s : State} (hi : s.Inv) (hh : s.halted = false) :
    (discoverTriple t s).Inv := by
  obtain ⟨-, h⟩ | ⟨-, -, h⟩ | ⟨hid, hpay, h⟩ := discoverTriple_cases t s <;> rw [h]
  · exact hi
  · exact hi
  · exact settle_inv hi hh (decodeRun_sound _ hid hpay)

/-- DISCOVER leaves no decode in progress: the whole decode never ends in `cont` (R20, R123). -/
theorem discoverTriple_decode {t : Discovery} {s : State} (hd : s.decode = none) :
    (discoverTriple t s).decode = none := by
  obtain ⟨-, h⟩ | ⟨-, -, h⟩ | ⟨-, -, h⟩ := discoverTriple_cases t s <;> rw [h]
  · exact hd
  · exact hd
  · obtain ⟨c, hc⟩ | ⟨e, he, -⟩ := decodeRun_ends s.params (latch (Config.unwritten s.freeCount) t)
    · rw [hc]; rfl
    · rw [he, settle_finish_decode]

/-! ### The step -/

/-- A step between events keeps the invariant. -/
theorem step_idle_inv {s t : State} (hi : s.Inv) (hd : s.decode = none) (hs : step s = .next t) : t.Inv := by
  have ⟨hp, hrf, hq, _, hwf⟩ := hi
  obtain ⟨ts, rfl⟩ | ⟨ts, rfl⟩ | ⟨ts, rfl⟩ | ⟨ts, rfl⟩ | ⟨ts, -, rfl⟩ | ⟨ts, n, tr, rest, hh, hqc, rfl⟩ |
    ⟨ts, n, hh, -, rfl⟩ | ⟨ts, n, hh, hsp, rfl⟩ := step_idle_cases hd hs
  · exact hi
  · exact inputOffer_inv hi
  · exact inputTick_inv hi
  · exact inputShutdown_inv hi
  · exact resetOf_inv hp
  · have hq' : rest.length ≤ s.params.queueDepth := by simp [hqc] at hq; omega
    exact discoverTriple_inv (.of_running hp hrf hq' hh hwf) hh
  · exact .of_running hp hrf.drained hq hh hwf
  · exact ⟨hp, hrf, Nat.zero_le _, fun _ => ⟨rfl, rfl, hsp, hd⟩, hwf⟩

/-- Settles O4: inside a decode a step settles a micro-step, which ends soundly; between events by `step_idle_inv`. -/
theorem stepKeepsTheInvariant : Obligations.StepKeepsTheInvariant := by
  intro s t hi hs
  cases hd : s.decode with
  | none => exact step_idle_inv hi hd hs
  | some d =>
    have ⟨_, _, _, hhalt, hwf⟩ := hi
    have hh : s.halted = false := by
      by_contra hne
      obtain ⟨-, -, -, hnone⟩ := hhalt (by simpa using hne)
      cases hd.symm.trans hnone
    rw [step_decode hd] at hs
    cases hs
    exact settle_inv hi hh (microStep_sound (hwf d hd))

/-- Settles O6: of the steps between events only DISCOVER decodes, and its decode is over with it. -/
theorem eventsLeaveNoDecodeInProgress : Obligations.EventsLeaveNoDecodeInProgress := by
  intro s t hd hs
  obtain ⟨ts, rfl⟩ | ⟨ts, rfl⟩ | ⟨ts, rfl⟩ | ⟨ts, rfl⟩ | ⟨ts, -, rfl⟩ | ⟨ts, n, tr, rest, -, -, rfl⟩ |
    ⟨ts, n, -, -, rfl⟩ | ⟨ts, n, -, -, rfl⟩ := step_idle_cases hd hs
  · exact hd
  · rw [inputOffer_decode]; exact hd
  · rw [inputTick_eq]; exact hd
  · rw [inputShutdown_eq]; exact hd
  · rfl
  · exact discoverTriple_decode hd
  · exact hd
  · exact hd

/-! ### Outside an event -/

/-- Settles O33: each of the twelve rows is a micro-step, and outside an event a micro-step stops by name. -/
theorem decoderRowsStopOutsideAnEvent : Obligations.DecoderRowsStopOutsideAnEvent := by
  intro s a t ir spare res rng hd i hmem
  have hmicro : (microOf s.params i).isSome := by
    revert i
    simp [microOf]
  obtain ⟨f, hf⟩ := Option.isSome_iff_exists.mp hmicro
  rw [exec_micro hf, runMicro_none hd]

end Sys2Proof.Machine
end

section
/-! PROOFS. A decode does not depend on what the transient registers held before it (10_state.md R20, R41). -/

namespace Sys2Proof.Machine

/-! ### Other contents of the registers not yet written -/

/-- The datapath `d` with the registers that may still be unwritten at `u`: the temperature and light registers while
their valid bits are 0, and `ctrl` and `desc`, which each record fetches before it reads them (R34, R35, R37). -/
def Datapath.refill (u : Unwritten) (d : Datapath) : Datapath :=
  { d with
    tempRaw := if d.tempV then d.tempRaw else u.tempRaw
    lightIr := if d.lightV then d.lightIr else u.lightIr
    lightRes := if d.lightV then d.lightRes else u.lightRes
    lightRng := if d.lightV then d.lightRng else u.lightRng
    lightVal := if d.lightV then d.lightVal else u.lightVal
    ctrl := u.ctrl
    desc := u.desc }

/-- The same change at the end of a micro-step. -/
def Micro.refill (u : Unwritten) : Micro → Micro
  | .cont d => .cont (d.refill u)
  | .finish d => .finish (d.refill u)
  | .raised c => .raised c

/-- The Reading shows none of them (R124). -/
theorem reading_refill (u : Unwritten) (d : Datapath) : (d.refill u).reading = d.reading := by
  cases ht : d.tempV <;> cases hl : d.lightV <;> simp [Datapath.reading, Datapath.refill, ht, hl]

/-! ### Operands and handlers -/

theorem memRead_refill (u : Unwritten) (d : Datapath) (n : Nat) :
    memRead (d.refill u) (d.refill u).cur n = memRead d d.cur n := rfl

theorem skip_refill (u : Unwritten) (n : Nat) (d : Datapath) :
    skip n (d.refill u) = (skip n d).map (Datapath.refill u) := by
  by_cases h : d.len < d.cur + n
  · rw [skip_past h, skip_past (d := d.refill u) h]; rfl
  · have hle : d.cur + n ≤ d.len := Nat.le_of_not_lt h
    rw [skip_within hle, skip_within (d := d.refill u) hle]; rfl

theorem alertSkip_refill (u : Unwritten) (a : Bool) (d : Datapath) :
    alertSkip a (d.refill u) = (alertSkip a d).map (Datapath.refill u) := by
  cases a with
  | false => rfl
  | true => exact skip_refill u 1 d

theorem skipPayload_refill (u : Unwritten) (n : Nat) (d : Datapath) :
    skipPayload n (d.refill u) = (skipPayload n d).refill u := by
  unfold skipPayload
  rw [skip_refill]
  cases skip n d <;> rfl

theorem temp_refill (u : Unwritten) (d : Datapath) : temp (d.refill u) = (temp d).refill u := by
  unfold temp takeValue
  rw [memRead_refill]
  cases memRead d d.cur 2 <;> rfl

theorem lightValue_refill (u : Unwritten) (n : Nat) (ir : Bool) (res rng : BitVec 2) (d : Datapath) :
    lightValue n ir res rng (d.refill u) = (lightValue n ir res rng d).refill u := by
  unfold lightValue takeValue
  rw [memRead_refill]
  cases memRead d d.cur n <;> rfl

theorem lightByLen_refill (u : Unwritten) (p : Params) (g : BitVec 2) (ir : Bool) (res rng : BitVec 2) (d : Datapath) :
    lightByLen p g ir res rng (d.refill u) = (lightByLen p g ir res rng d).refill u := by
  unfold lightByLen lightBadLen
  simp only [lightValue_refill]
  repeat' split
  all_goals rfl

/-- The descriptor byte raises in both, or stands in both (R116). -/
theorem takeDesc_refill (u : Unwritten) (d : Datapath) :
    (∃ c, takeDesc d = .error c ∧ takeDesc (d.refill u) = .error c) ∨
    (∃ e w, w.desc = e.desc ∧ takeDesc d = .ok e ∧ takeDesc (d.refill u) = .ok (e.refill w)) := by
  unfold takeDesc
  rw [memRead_refill]
  cases memRead d d.cur 1 with
  | error c => exact .inl ⟨c, rfl, rfl⟩
  | ok v => exact .inr ⟨_, { u with desc := v.truncate 8 }, rfl, rfl, rfl⟩

/-- The control byte raises in both, or stands in both (R111). -/
theorem fetchCtrl_refill (u : Unwritten) (d : Datapath) :
    (∃ c, fetchCtrl d = .error c ∧ fetchCtrl (d.refill u) = .error c) ∨
    (∃ e w, w.ctrl = e.ctrl ∧ fetchCtrl d = .ok e ∧ fetchCtrl (d.refill u) = .ok (e.refill w)) := by
  unfold fetchCtrl
  rw [memRead_refill]
  cases memRead d d.cur 1 with
  | error c => exact .inl ⟨c, rfl, rfl⟩
  | ok v => exact .inr ⟨_, { u with ctrl := v.truncate 8 }, rfl, rfl, rfl⟩

/-- LIGHT reads the descriptor it has fetched, not what `desc` held (R116). -/
theorem light_refill (u : Unwritten) (p : Params) (d : Datapath) :
    ∃ w, light p (d.refill u) = (light p d).refill w := by
  unfold light
  obtain ⟨c, hd, hu⟩ | ⟨e, w, hw, hd, hu⟩ := takeDesc_refill u d <;> rw [hd, hu]
  · exact ⟨u, rfl⟩
  · have hdesc : (e.refill w).desc = e.desc := hw
    simp only [hdesc, lightByLen_refill]
    exact ⟨w, rfl⟩

/-- Once `ctrl` is fetched, dispatch reads no register that is not written (R114). -/
theorem dispatch_refill {u : Unwritten} (p : Params) {d : Datapath} (hc : u.ctrl = d.ctrl) :
    ∃ w, dispatch p (d.refill u) = (dispatch p d).refill w := by
  have hD : (d.refill u).D = d.D := congrArg hasData hc
  have hT : (d.refill u).T = d.T := congrArg dataType hc
  unfold dispatch
  rw [hD, hT]
  repeat' split
  · exact ⟨u, skipPayload_refill u 2 d⟩
  · exact light_refill u p d
  · exact ⟨u, temp_refill u d⟩
  · exact ⟨u, skipPayload_refill u 1 d⟩
  · exact ⟨u, rfl⟩
  · exact ⟨u, rfl⟩
  · exact ⟨u, rfl⟩

/-! ### The record loop and the whole decode -/

/-- A record reads the control byte it has fetched, not what `ctrl` held (R110). -/
theorem recordStep_refill (u : Unwritten) (p : Params) (d : Datapath) :
    ∃ w, recordStep p (d.refill u) = (recordStep p d).refill w := by
  have hcur : (d.refill u).cur = d.cur := rfl
  have hlen : (d.refill u).len = d.len := rfl
  unfold recordStep
  rw [hcur, hlen]
  split
  · exact ⟨u, rfl⟩
  · obtain ⟨c, hd, hu⟩ | ⟨e, w, hw, hd, hu⟩ := fetchCtrl_refill u d <;> rw [hd, hu]
    · exact ⟨u, rfl⟩
    · have hA : (e.refill w).A = e.A := congrArg hasAlert hw
      simp only [hA, withAlert, alertSkip_refill]
      cases hs : alertSkip e.A e with
      | error c => exact ⟨u, rfl⟩
      | ok f => exact dispatch_refill p (hw.trans (by rw [(alertSkip_ok hs).1]))

/-- The record loop ends the same whatever the registers not yet written hold. -/
theorem rloop_refill (p : Params) (fuel : Nat) (u : Unwritten) (d : Datapath) :
    ∃ w, rloop p fuel (d.refill u) = (rloop p fuel d).refill w := by
  induction fuel generalizing u d with
  | zero => exact ⟨u, rfl⟩
  | succ fuel ih =>
    obtain ⟨w, hw⟩ := recordStep_refill u p d
    simp only [rloop, hw]
    cases recordStep p d with
    | cont e => exact ih w e
    | finish e => exact ⟨w, rfl⟩
    | raised c => exact ⟨w, rfl⟩

theorem magicFrom_latch (u v : Unwritten) (t : Discovery) (k : Nat) (bs : ByteString) :
    magicFrom (latch v t) k bs = magicFrom (latch u t) k bs := by
  induction bs generalizing k with
  | nil => rfl
  | cons b rest ih => simp only [magicFrom, ih]; rfl

/-- The header validator reads the payload alone, and leaves both valid bits 0 (R100, R124). -/
theorem hdrchk_latch (u v : Unwritten) (t : Discovery) : hdrchk (latch v t) = (hdrchk (latch u t)).refill v := by
  have hread : memRead (latch v t) 5 1 = memRead (latch u t) 5 1 := rfl
  have hlen : (latch v t).len = (latch u t).len := rfl
  unfold hdrchk
  rw [magicFrom_latch u v, hread, hlen]
  split
  · rfl
  · split
    · cases memRead (latch u t) 5 1 <;> rfl
    · rfl

theorem decodeRun_latch (p : Params) (u v : Unwritten) (t : Discovery) :
    ∃ w, decodeRun p (latch v t) = (decodeRun p (latch u t)).refill w := by
  unfold decodeRun
  rw [hdrchk_latch u v]
  cases hdrchk (latch u t) with
  | cont d => exact rloop_refill p (d.len + 1) v d
  | finish d => exact ⟨v, rfl⟩
  | raised c => exact ⟨v, rfl⟩

/-- Settles O35: the second decode is the first with other contents in registers that its end does not show. -/
theorem decodeIgnoresWhatTheRegistersHeld : Obligations.DecodeIgnoresWhatTheRegistersHeld := by
  intro p u v t
  obtain ⟨w, hw⟩ := decodeRun_latch p u v t
  rw [hw]
  obtain ⟨c, hc⟩ | ⟨e, he, -⟩ := decodeRun_ends p (latch u t)
  · rw [hc]; exact .inl ⟨c, rfl, rfl⟩
  · rw [he]; exact .inr ⟨e, e.refill w, rfl, rfl, rfl, (reading_refill w e).symm⟩

end Sys2Proof.Machine
end

section
/-! PROOFS. A read of the payload buffer (20_memory.md R51). -/

namespace Sys2Proof.Machine

/-! ### What a buffer that holds a payload reads -/

/-- The cells of a latched payload are its bytes (R50). -/
theorem Datapath.holds.read {d : Datapath} {bytes : ByteString} (h : d.holds bytes) (a : Nat) :
    d.buf.read a = bytes[a]? := by
  rw [h.1, Memory.read_latched]

/-- An offset with a byte of the payload lies below `len` (R50). -/
theorem Datapath.holds.lt_len {d : Datapath} {bytes : ByteString} (h : d.holds bytes) {a : Nat} {b : Byte}
    (hb : bytes[a]? = some b) : a < d.len := by
  obtain ⟨ha, -⟩ := List.getElem?_eq_some_iff.mp hb
  rw [h.2]; exact ha

/-! ### Values -/

/-- The number of two bytes read together is the little-endian sum of R51. -/
theorem toNat_append_bytes (lo hi : Byte) : (hi ++ lo).toNat = lo.toNat + 256 * hi.toNat := by
  calc (hi ++ lo).toNat = hi.toNat <<< 8 ||| lo.toNat := BitVec.toNat_append hi lo
    _ = hi.toNat <<< 8 + lo.toNat := (Nat.shiftLeft_add_eq_or_of_lt lo.isLt hi.toNat).symm
    _ = lo.toNat + 256 * hi.toNat := by rw [Nat.shiftLeft_eq]; omega

/-- Settles O22: a byte of the payload lies below `len`, so the read answers it, zero-extended, or two of them as one
little-endian number; a read past `len` never looks at the buffer. -/
theorem memReadIsLittleEndianAndBounded : Obligations.MemReadIsLittleEndianAndBounded := by
  intro d bytes h a
  refine ⟨fun b hb => ?one, fun lo hi hlo hhi => ?two, fun n _ hn => ?past⟩
  case one =>
    exact ⟨_, memRead_one (h.lt_len hb) ((h.read a).trans hb), BitVec.toNat_setWidth_of_le (by decide)⟩
  case two =>
    exact ⟨_, memRead_two (h.lt_len hhi) ((h.read a).trans hlo) ((h.read (a + 1)).trans hhi), toNat_append_bytes lo hi⟩
  case past =>
    exact memRead_past (h.2 ▸ hn)

end Sys2Proof.Machine
end

section
/-! PROOFS. The encoding spaces: what the decoder reads is what the encoder writes (30_encoding.md R71-R82). -/

namespace Sys2Proof

/-! ### The control byte and its fields -/

@[simp] theorem hasAlert_ctrlByte : ∀ (a d : Bool) (t : BitVec 6), hasAlert (ctrlByte a d t) = a := by decide

@[simp] theorem hasData_ctrlByte : ∀ (a d : Bool) (t : BitVec 6), hasData (ctrlByte a d t) = d := by decide

@[simp] theorem dataType_ctrlByte : ∀ (a d : Bool) (t : BitVec 6), dataType (ctrlByte a d t) = t := by decide

/-- A control byte is nothing but its three fields (R72). -/
theorem ctrlByte_fields : ∀ b : Byte, ctrlByte (hasAlert b) (hasData b) (dataType b) = b := by decide

/-! ### The light descriptor and its fields -/

@[simp] theorem isIR_descByte :
    ∀ (i s : Bool) (r g l : BitVec 2), isIR (descByte i s r g l) = i := by decide

@[simp] theorem spareBit_descByte :
    ∀ (i s : Bool) (r g l : BitVec 2), spareBit (descByte i s r g l) = s := by decide

@[simp] theorem resolution_descByte :
    ∀ (i s : Bool) (r g l : BitVec 2), resolution (descByte i s r g l) = r := by decide

@[simp] theorem rangeCode_descByte :
    ∀ (i s : Bool) (r g l : BitVec 2), rangeCode (descByte i s r g l) = g := by decide

@[simp] theorem lenCode_descByte :
    ∀ (i s : Bool) (r g l : BitVec 2), lenCode (descByte i s r g l) = l := by decide

/-- A light descriptor is nothing but its five fields (R75). -/
theorem descByte_fields :
    ∀ b : Byte, descByte (isIR b) (spareBit b) (resolution b) (rangeCode b) (lenCode b) = b := by decide

/-! ### The rows of each space, encoded and decoded -/

/-- A control byte decodes by its has-data flag and its data-type (R79, R111). -/
theorem decodeCtrl_ctrlByte (a d : Bool) (t : BitVec 6) :
    decodeCtrl (ctrlByte a d t) =
      if d then
        if t = 0x01 then .motion a
        else if t = 0x02 then .light a
        else if t = 0x03 then .temp a
        else if t = 0x2f then .pair a
        else if t = 0x3f then .enc a
        else .unknown a t
      else .nop a t := by
  simp only [decodeCtrl, hasAlert_ctrlByte, hasData_ctrlByte, dataType_ctrlByte]

/-- A light descriptor decodes by its length code (R75, R76). -/
theorem decodeDesc_descByte (i s : Bool) (r g l : BitVec 2) :
    decodeDesc (descByte i s r g l) =
      if l = 1 then .light8 i s r g
      else if l = 2 then .light16 i s r g
      else if l = 0 then .lightBadLen0 i s r g
      else .lightBadLen3 i s r g := by
  simp only [decodeDesc, isIR_descByte, spareBit_descByte, resolution_descByte, rangeCode_descByte, lenCode_descByte]

/-- An event id decodes by its value (R82). -/
theorem decode_event_cons (b : Byte) (rest : ByteString) :
    decode .event (b :: rest) =
      if b = 0 then .ok (.discover, rest)
      else if b = 1 then .ok (.tick, rest)
      else if b = 2 then .ok (.shutdown, rest)
      else .error .reservedEvent := by
  by_cases h : b.toNat < 4
  · obtain rfl | rfl | rfl | rfl : b = 0 ∨ b = 1 ∨ b = 2 ∨ b = 3 := by bv_omega
    all_goals rfl
  · obtain ⟨h0, h1, h2⟩ : b ≠ 0 ∧ b ≠ 1 ∧ b ≠ 2 := by bv_omega
    rw [if_neg h0, if_neg h1, if_neg h2]
    simp only [decode, if_neg h]

/-- UNKNOWN is the row of the types without a handler (R80, R121). -/
theorem wf_unknown_iff (p : Params) (a : Bool) (t : BitVec 6) :
    (Instr.unknown a t).wf p = true ↔ t ≠ 0x01 ∧ t ≠ 0x02 ∧ t ≠ 0x03 ∧ t ≠ 0x2f ∧ t ≠ 0x3f := by
  simp [Instr.wf, knownTypes]

/-- The control byte that encodes a record row decodes to it (R72). -/
theorem decodeCtrl_encode {p : Params} {i : Instr} (hw : i.wf p = true) (hs : i.space = some .record) :
    ∃ b, encode i = [b] ∧ decodeCtrl b = i := by
  cases i <;> simp only [Instr.space, Option.some.injEq, reduceCtorEq] at hs
  case unknown a t =>
    obtain ⟨h1, h2, h3, h4, h5⟩ := (wf_unknown_iff p a t).mp hw
    exact ⟨_, rfl, by simp only [decodeCtrl_ctrlByte, if_true, if_neg h1, if_neg h2, if_neg h3, if_neg h4, if_neg h5]⟩
  all_goals exact ⟨_, rfl, decodeCtrl_ctrlByte _ _ _⟩

/-- The byte that encodes a descriptor row decodes to it (R75). -/
theorem decodeDesc_encode {i : Instr} (hs : i.space = some .descriptor) : ∃ b, encode i = [b] ∧ decodeDesc b = i := by
  cases i <;> simp only [Instr.space, Option.some.injEq, reduceCtorEq] at hs
  all_goals exact ⟨_, rfl, decodeDesc_descByte _ _ _ _ _⟩

/-- Every control byte is the encoding of the well-formed record row it decodes to (R72, R80). -/
theorem encode_decodeCtrl (p : Params) (b : Byte) :
    (decodeCtrl b).wf p = true ∧ (decodeCtrl b).space = some .record ∧ encode (decodeCtrl b) = [b] := by
  obtain ⟨a, d, t, rfl⟩ : ∃ a d t, b = ctrlByte a d t := ⟨_, _, _, (ctrlByte_fields b).symm⟩
  rw [decodeCtrl_ctrlByte]
  cases d with
  | false => exact ⟨rfl, rfl, rfl⟩
  | true =>
    by_cases hu : (Instr.unknown a t).wf p = true
    · obtain ⟨h1, h2, h3, h4, h5⟩ := (wf_unknown_iff p a t).mp hu
      simp only [if_true, if_neg h1, if_neg h2, if_neg h3, if_neg h4, if_neg h5]
      exact ⟨hu, rfl, rfl⟩
    · obtain rfl | rfl | rfl | rfl | rfl : t = 0x01 ∨ t = 0x02 ∨ t = 0x03 ∨ t = 0x2f ∨ t = 0x3f := by
        rw [wf_unknown_iff] at hu; tauto
      all_goals exact ⟨rfl, rfl, rfl⟩

/-- Every descriptor byte is the encoding of the row it decodes to (R75, R76). -/
theorem encode_decodeDesc (p : Params) (b : Byte) :
    (decodeDesc b).wf p = true ∧ (decodeDesc b).space = some .descriptor ∧ encode (decodeDesc b) = [b] := by
  obtain ⟨i, s, r, g, l, rfl⟩ : ∃ i s r g l, b = descByte i s r g l := ⟨_, _, _, _, _, (descByte_fields b).symm⟩
  rw [decodeDesc_descByte]
  obtain rfl | rfl | rfl | rfl : l = 0 ∨ l = 1 ∨ l = 2 ∨ l = 3 := by revert l; decide
  all_goals exact ⟨rfl, rfl, rfl⟩

/-! ### The statements -/

/-- Settles O12, space by space: the encoder puts each field where the decoder of that space reads it. -/
theorem decodingAnEncodedInstructionGivesItBack : Obligations.DecodingAnEncodedInstructionGivesItBack := by
  intro p i sp rest hw hs hlen
  cases sp with
  | header =>
    have hr : ¬ rest.length + 5 < 7 := by have := hlen rfl; omega
    cases i <;> simp only [Instr.space, Option.some.injEq, reduceCtorEq] at hs
    simp [decode, encode, magic, hr]
  | record =>
    obtain ⟨b, hb, hi⟩ := decodeCtrl_encode hw hs
    rw [hb, ← hi]; rfl
  | descriptor =>
    obtain ⟨b, hb, hi⟩ := decodeDesc_encode hs
    rw [hb, ← hi]; rfl
  | event =>
    cases i <;> simp only [Instr.space, Option.some.injEq, reduceCtorEq] at hs
    all_goals exact decode_event_cons _ rest

/-- Settles O13, space by space: a byte is nothing but the fields that its decoder reads. -/
theorem decodedBytesAreTheEncoding : Obligations.DecodedBytesAreTheEncoding := by
  intro p i sp bytes rest h
  cases sp with
  | header =>
    simp only [decode] at h
    split at h
    · cases h
    · split at h
      · next hm =>
        cases h
        exact ⟨rfl, rfl, by rw [encode, ← hm, List.take_append_drop]⟩
      · cases h
  | record =>
    cases bytes with
    | nil => cases h
    | cons b bs =>
      cases h
      obtain ⟨hw, hs, he⟩ := encode_decodeCtrl p b
      exact ⟨hw, hs, by rw [he]; rfl⟩
  | descriptor =>
    cases bytes with
    | nil => cases h
    | cons b bs =>
      cases h
      obtain ⟨hw, hs, he⟩ := encode_decodeDesc p b
      exact ⟨hw, hs, by rw [he]; rfl⟩
  | event =>
    cases bytes with
    | nil => cases h
    | cons b bs =>
      rw [decode_event_cons] at h
      repeat' split at h
      all_goals cases h
      all_goals subst b; exact ⟨rfl, rfl, rfl⟩

/-- The fields of a control byte as ranges of its value (R79). -/
theorem ctrlByte_fields_toNat : ∀ b : Byte,
    hasAlert b = decide (0x80 ≤ b.toNat) ∧ hasData b = decide (0x40 ≤ b.toNat % 128) ∧
      dataType b = BitVec.ofNat 6 (b.toNat % 128) := by decide

/-- With has-data set, the data-type is `t` exactly when the low seven bits are `0x40 + t` (R72). -/
theorem ofNat_type_eq_iff {n : Nat} (h : 0x40 ≤ n) (hn : n < 128) (t : BitVec 6) :
    BitVec.ofNat 6 n = t ↔ n = 0x40 + t.toNat := by
  rw [← BitVec.toNat_inj, BitVec.toNat_ofNat]; omega

/-- Settles O14: the ranges of R79 are the cases of the decoder on the fields read as numbers. -/
theorem controlBytesFallInTheTablesClasses : Obligations.ControlBytesFallInTheTablesClasses := by
  intro b
  obtain ⟨ha, hd, ht⟩ := ctrlByte_fields_toNat b
  have hn : b.toNat % 128 < 128 := Nat.mod_lt _ (by decide)
  simp only [decodeCtrl, ha, hd, ht]
  by_cases h : b.toNat % 128 < 0x40
  · rw [if_pos h, if_neg (by simpa using h)]
  · rw [if_neg h, if_pos (by simpa using h)]
    simp only [ofNat_type_eq_iff (Nat.le_of_not_lt h) hn]
    rfl

/-- Settles O15: seven words are an encoding and its operand bytes (O12); the other two, the reserved id and the wrong
prefix, the decoder rejects. -/
theorem specWordsDecodeToTheirInstructions : Obligations.SpecWordsDecodeToTheirInstructions := by
  have encoded := decodingAnEncodedInstructionGivesItBack Config.params
  exact ⟨encoded .hdr .header [0x32, 0x00] rfl rfl (fun _ => by decide),
    encoded (.temp true) .record [0xaa, 0x90, 0x01] rfl rfl nofun,
    encoded (.nop false 0x3f) .record [] rfl rfl nofun,
    encoded (.unknown true 0x10) .record [] rfl rfl nofun,
    encoded (.light16 true false 3 1) .descriptor [0xe8, 0x03] rfl rfl nofun,
    encoded (.light8 false true 0 1) .descriptor [0x07] rfl rfl nofun,
    encoded .tick .event [] rfl rfl nofun,
    decode_event_cons 0x03 [],
    rfl⟩

end Sys2Proof
end

section
/-! PROOFS. The bytes a decode has still to read, and one iteration of RLOOP on them (20_memory.md R50-R55,
41_records.md R110-R114). -/

namespace Sys2Proof.Machine

/-! ### The payload from an offset on -/

/-- From offset `a` on, the payload in the buffer is `bs`, and it ends there (R31, R50). -/
def Datapath.bytesFrom (d : Datapath) (a : Nat) (bs : ByteString) : Prop :=
  d.len = a + bs.length ∧ ∀ k, d.buf.read (a + k) = bs[k]?

theorem Datapath.holds.bytesFrom {d : Datapath} {bytes : ByteString} (h : d.holds bytes) {a : Nat}
    (ha : a ≤ bytes.length) : d.bytesFrom a (bytes.drop a) :=
  ⟨by rw [h.2, List.length_drop]; omega, fun k => by rw [h.read, List.getElem?_drop]⟩

theorem Datapath.bytesFrom.len {d : Datapath} {a : Nat} {bs : ByteString} (h : d.bytesFrom a bs) :
    d.len = a + bs.length := h.1

theorem Datapath.bytesFrom.drop {d : Datapath} {a : Nat} {bs : ByteString} (h : d.bytesFrom a bs) {n : Nat}
    (hn : n ≤ bs.length) : d.bytesFrom (a + n) (bs.drop n) :=
  ⟨by rw [h.len, List.length_drop]; omega, fun k => by rw [Nat.add_assoc, h.2, List.getElem?_drop]⟩

theorem Datapath.bytesFrom.append_right {d : Datapath} {a : Nat} {xs bs : ByteString} (h : d.bytesFrom a (xs ++ bs)) :
    d.bytesFrom (a + xs.length) bs := by
  have := h.drop (n := xs.length) (by simp)
  rwa [List.drop_left] at this

theorem Datapath.bytesFrom.tail {d : Datapath} {a : Nat} {b : Byte} {bs : ByteString} (h : d.bytesFrom a (b :: bs)) :
    d.bytesFrom (a + 1) bs :=
  h.append_right (xs := [b])

theorem Datapath.bytesFrom.lt_len {d : Datapath} {a : Nat} {b : Byte} {bs : ByteString} (h : d.bytesFrom a (b :: bs)) :
    a < d.len := by
  rw [h.len, List.length_cons]; omega

theorem Datapath.bytesFrom.head {d : Datapath} {a : Nat} {b : Byte} {bs : ByteString} (h : d.bytesFrom a (b :: bs)) :
    d.buf.read a = some b := h.2 0

/-! ### Values at the cursor -/

theorem Datapath.bytesFrom.memRead_one {d : Datapath} {a : Nat} {b : Byte} {bs : ByteString}
    (h : d.bytesFrom a (b :: bs)) : memRead d a 1 = .ok (b.zeroExtend 16) :=
  Machine.memRead_one h.lt_len h.head

theorem takeValue_one {d : Datapath} {v : Byte} {bs : ByteString} (h : d.bytesFrom d.cur (v :: bs)) :
    takeValue 1 d = .ok (v.zeroExtend 16, { d with cur := d.cur + 1 }) := by
  simp only [takeValue, h.memRead_one]

theorem takeValue_two {d : Datapath} {lo hi : Byte} {bs : ByteString} (h : d.bytesFrom d.cur (lo :: hi :: bs)) :
    takeValue 2 d = .ok (hi ++ lo, { d with cur := d.cur + 2 }) := by
  simp only [takeValue, memRead_two h.tail.lt_len h.head h.tail.head]

theorem takeValue_past {d : Datapath} {n : Nat} (h : d.len < d.cur + n) :
    takeValue n d = .error (.truncated d.cur) := by
  simp only [takeValue, memRead_past h]

/-- A value of one or two bytes that fits is read, whatever it is (R51). -/
theorem takeValue_fits {d : Datapath} {bs : ByteString} (h : d.bytesFrom d.cur bs) {n : Nat} (hn : n = 1 ∨ n = 2)
    (hl : d.cur + n ≤ d.len) : ∃ v, takeValue n d = .ok (v, { d with cur := d.cur + n }) := by
  have hbs : n ≤ bs.length := by have := h.len; omega
  obtain rfl | rfl := hn
  · obtain ⟨v, bs, rfl⟩ := List.exists_cons_of_length_pos hbs
    exact ⟨_, takeValue_one h⟩
  · obtain ⟨lo, bs, rfl⟩ := List.exists_cons_of_length_pos (Nat.lt_of_succ_lt hbs)
    obtain ⟨hi, bs, rfl⟩ := List.exists_cons_of_length_pos (Nat.lt_of_succ_le (Nat.le_of_succ_le_succ hbs))
    exact ⟨_, takeValue_two h⟩

/-! ### What the value records do with their bytes -/

theorem temp_bytes {d : Datapath} {lo hi : Byte} {bs : ByteString} (h : d.bytesFrom d.cur (lo :: hi :: bs)) :
    temp d = .cont { d with
      cur := d.cur + 2, tempV := true, tempRaw := hi ++ lo, summary := d.summary ++ tempSegment (hi ++ lo) } := by
  rw [temp, takeValue_two h]

theorem lightValue_one {d : Datapath} {v : Byte} {bs : ByteString} (h : d.bytesFrom d.cur (v :: bs))
    (ir : Bool) (res rng : BitVec 2) :
    lightValue 1 ir res rng d = .cont (commitLight ir res rng (v.zeroExtend 16) { d with cur := d.cur + 1 }) := by
  rw [lightValue, takeValue_one h]

theorem lightValue_two {d : Datapath} {lo hi : Byte} {bs : ByteString} (h : d.bytesFrom d.cur (lo :: hi :: bs))
    (ir : Bool) (res rng : BitVec 2) :
    lightValue 2 ir res rng d = .cont (commitLight ir res rng (hi ++ lo) { d with cur := d.cur + 2 }) := by
  rw [lightValue, takeValue_two h]

@[simp] theorem lightByLen_one (p : Params) (ir : Bool) (res rng : BitVec 2) (d : Datapath) :
    lightByLen p 1 ir res rng d = lightValue 1 ir res rng d := rfl

@[simp] theorem lightByLen_two (p : Params) (ir : Bool) (res rng : BitVec 2) (d : Datapath) :
    lightByLen p 2 ir res rng d = lightValue 2 ir res rng d := rfl

/-- LIGHT takes the descriptor byte, then the arm of its length code (R116). -/
theorem light_bytes (p : Params) {d : Datapath} {g : Byte} {bs : ByteString} (h : d.bytesFrom d.cur (g :: bs)) :
    light p d = lightByLen p (lenCode g) (isIR g) (resolution g) (rangeCode g) { d with desc := g, cur := d.cur + 1 } := by
  rw [light, takeDesc_within h.lt_len h.head]

/-! ### The control byte and the alert byte of a record -/

/-- The datapath past the control byte `c` of a record and past its alert byte, if it has one (R111, R112). -/
def Datapath.pastHead (c : Byte) (d : Datapath) : Datapath :=
  { d with ctrl := c, cur := d.cur + 1 + (hasAlert c).toNat }

@[simp] theorem Datapath.pastHead_D (c : Byte) (d : Datapath) : (d.pastHead c).D = hasData c := rfl
@[simp] theorem Datapath.pastHead_T (c : Byte) (d : Datapath) : (d.pastHead c).T = dataType c := rfl

/-- With a byte at the cursor, an iteration of RLOOP fetches it as the control byte (R110, R111). -/
theorem recordStep_cons (p : Params) {d : Datapath} {c : Byte} {bs : ByteString} (h : d.bytesFrom d.cur (c :: bs)) :
    recordStep p d = withAlert (hasAlert c) (dispatch p) { d with ctrl := c, cur := d.cur + 1 } := by
  have hlt := h.lt_len
  rw [recordStep, if_neg (by omega), fetchCtrl_within hlt h.head]
  rfl

/-- With the alert byte there too, it goes on to the gate and DISPATCH (R110, R112). -/
theorem recordStep_pastHead (p : Params) {d : Datapath} {c : Byte} {bs : ByteString} (h : d.bytesFrom d.cur (c :: bs))
    (ha : (hasAlert c).toNat ≤ bs.length) :
    recordStep p d = dispatch p (d.pastHead c) ∧
      (d.pastHead c).bytesFrom (d.pastHead c).cur (bs.drop (hasAlert c).toNat) := by
  have hfits : d.cur + 1 + (hasAlert c).toNat ≤ d.len := by have := h.tail.len; omega
  exact ⟨by rw [recordStep_cons p h, withAlert_within _ hfits]; rfl, h.tail.drop ha⟩

/-- A missing alert byte is `Truncated` (R112). -/
theorem recordStep_missing_alert (p : Params) {d : Datapath} {c : Byte} {bs : ByteString}
    (h : d.bytesFrom d.cur (c :: bs)) (ha : bs.length < (hasAlert c).toNat) :
    recordStep p d = .raised (.truncated (d.cur + 1)) := by
  have hone := Bool.toNat_le (hasAlert c)
  have halert : hasAlert c = true := Bool.toNat_eq_one.mp (by omega)
  have hlen := h.tail.len
  rw [recordStep_cons p h, halert]
  exact withAlert_past (dispatch p) (by simp only; omega)

/-- A record with has-data set goes to the handler of its data-type (R114). -/
theorem dispatch_of_D {p : Params} {d : Datapath} (hD : d.D = true) :
    dispatch p d =
      if d.T = 0x01 then motion d
      else if d.T = 0x02 then light p d
      else if d.T = 0x03 then temp d
      else if d.T = 0x2f then pair d
      else if d.T = 0x3f then enc d
      else unknown d.T d := by
  rw [dispatch, hD]
  rfl

end Sys2Proof.Machine
end

section
/-! PROOFS. The decoder reads back the record notation (30_encoding.md R83, 41_records.md R124, R125, R144). -/

namespace Sys2Proof.Machine

open Sys2Proof.Stmt

/-! ### The Reading a sequence of records adds to -/

/-- The Reading `r` once the records `xs` have followed: the last temperature and light record count, and the segments
go on in stream order (R125, R144). -/
def Reading.extend (r : Reading) (xs : List Rec) : Reading :=
  { battery := r.battery
    temperature := (lastTemp xs).or r.temperature
    light := (lastLight xs).or r.light
    summary := r.summary ++ xs.flatMap segment }

theorem Reading.extend_nil (r : Reading) : r.extend [] = r := by
  simp [Reading.extend, lastTemp, lastLight]

theorem Reading.extend_cons (r : Reading) (x : Rec) (xs : List Rec) :
    r.extend (x :: xs) = (r.extend [x]).extend xs := by
  have hsplit : x :: xs = [x] ++ xs := rfl
  simp only [hsplit, Reading.extend, lastTemp, lastLight, List.filterMap_append, List.getLast?_append, Option.or_assoc,
    List.flatMap_append, List.append_assoc]

/-! ### Records of the notation -/

/-- The micro-step `r` read the record `x` from `d` and goes on: `bs` is what follows, and the Reading has `x` added. -/
def ReadsRecord (x : Rec) (bs : ByteString) (d : Datapath) (r : Micro) : Prop :=
  ∃ e, r = .cont e ∧ e.id = d.id ∧ e.bytesFrom e.cur bs ∧ e.reading = d.reading.extend [x]

/-- A 16-bit value is its low byte below its high byte (R52). -/
theorem leHalf_bytes (v : Half) : (v >>> 8).truncate 8 ++ v.truncate 8 = v := by
  apply BitVec.eq_of_toNat_eq
  rw [toNat_append_bytes]
  have := v.isLt
  simp [Nat.shiftRight_eq_div_pow]; omega

theorem skipPayload_reads {x : Rec} {xs bs : ByteString} {d : Datapath} (h : d.bytesFrom d.cur (xs ++ bs))
    (hx : d.reading.extend [x] = d.reading) : ReadsRecord x bs d (skipPayload xs.length d) := by
  have hfits : d.cur + xs.length ≤ d.len := by rw [h.len, List.length_append]; omega
  exact ⟨{ d with cur := d.cur + xs.length }, by rw [skipPayload, skip_within hfits], rfl, h.append_right, hx.symm⟩

theorem temp_reads (alert : Option Byte) {v : Half} {bs : ByteString} {d : Datapath}
    (h : d.bytesFrom d.cur (leHalf v ++ bs)) : ReadsRecord ⟨alert, .temp v⟩ bs d (temp d) := by
  refine ⟨_, temp_bytes h, rfl, h.append_right, ?_⟩
  rw [leHalf_bytes]
  simp [Datapath.reading, Reading.extend, lastTemp, lastLight, Stmt.segment]

/-- What a light record commits is what it adds to the Reading. -/
theorem commitLight_reads {x : Rec} {bs : ByteString} {d e : Datapath} {ir : Bool} {res rng : BitVec 2} {v : Half}
    (hid : e.id = d.id) (he : e.bytesFrom e.cur bs) (hr : e.reading = d.reading)
    (hx : lastTemp [x] = none ∧ lastLight [x] = some ⟨ir, res, rng, v⟩ ∧ Stmt.segment x = lightSegment ir res rng v) :
    ReadsRecord x bs d (.cont (commitLight ir res rng v e)) := by
  have hcommit : (commitLight ir res rng v e).reading =
      { e.reading with light := some ⟨ir, res, rng, v⟩, summary := e.reading.summary ++ lightSegment ir res rng v } := rfl
  refine ⟨_, rfl, hid, he, ?_⟩
  obtain ⟨htemp, hlight, hseg⟩ := hx
  rw [hcommit, hr]
  simp [Reading.extend, htemp, hlight, hseg]

theorem light8_reads (p : Params) (alert : Option Byte) {ir : Bool} {res rng : BitVec 2} {v : Byte} {bs : ByteString}
    {d : Datapath} (h : d.bytesFrom d.cur (descByte ir false res rng 1 :: v :: bs)) :
    ReadsRecord ⟨alert, .light8 ir res rng v⟩ bs d (light p d) := by
  rw [light_bytes p h, lenCode_descByte, isIR_descByte, resolution_descByte, rangeCode_descByte]
  rw [lightByLen_one, lightValue_one h.tail]
  exact commitLight_reads rfl h.tail.tail rfl ⟨rfl, rfl, rfl⟩

theorem light16_reads (p : Params) (alert : Option Byte) {ir : Bool} {res rng : BitVec 2} {v : Half} {bs : ByteString}
    {d : Datapath} (h : d.bytesFrom d.cur (descByte ir false res rng 2 :: (leHalf v ++ bs))) :
    ReadsRecord ⟨alert, .light16 ir res rng v⟩ bs d (light p d) := by
  rw [light_bytes p h, lenCode_descByte, isIR_descByte, resolution_descByte, rangeCode_descByte]
  rw [lightByLen_two, lightValue_two h.tail, leHalf_bytes]
  exact commitLight_reads rfl h.tail.append_right rfl ⟨rfl, rfl, rfl⟩

/-! ### The gate, DISPATCH and the record loop on them -/

/-- Past its control and alert bytes, a record that goes on is read by the handler that its control byte names. -/
theorem dispatch_reads {p : Params} {x : Rec} {bs : ByteString} {d : Datapath} (hx : goesOn p x)
    (hD : d.D = x.body.head.1) (hT : d.T = x.body.head.2) (h : d.bytesFrom d.cur (x.body.payload ++ bs)) :
    ReadsRecord x bs d (dispatch p d) := by
  obtain ⟨alert, body⟩ := x
  obtain ⟨henc, hnop⟩ := hx
  cases body with
  | nop t =>
    have hclosed : gateOpen p d.D d.T = false := by
      rw [hD, hT]
      simpa [gateOpen, RecBody.head] using hnop
    rw [dispatch, if_neg (by simp [hclosed])]
    exact ⟨d, rfl, rfl, h, by simp [Reading.extend, lastTemp, lastLight, Stmt.segment]⟩
  | motion x y =>
    rw [dispatch_of_D hD, hT]
    exact skipPayload_reads h (by simp [Reading.extend, lastTemp, lastLight, Stmt.segment])
  | light8 ir res rng v =>
    rw [dispatch_of_D hD, hT]
    exact light8_reads p alert h
  | light16 ir res rng v =>
    rw [dispatch_of_D hD, hT]
    exact light16_reads p alert h
  | temp v =>
    rw [dispatch_of_D hD, hT]
    exact temp_reads alert h
  | pair x =>
    rw [dispatch_of_D hD, hT]
    exact skipPayload_reads h (by simp [Reading.extend, lastTemp, lastLight, Stmt.segment])
  | enc => exact absurd rfl henc

/-- The control and alert bytes of a record of the notation, before `bs`, lead to the gate at its payload (R83, R110). -/
theorem recordStep_notation (p : Params) {x : Rec} {bs : ByteString} {d : Datapath}
    (h : d.bytesFrom d.cur (x.bytes ++ bs)) :
    ∃ e, recordStep p d = dispatch p e ∧ e.id = d.id ∧ e.reading = d.reading ∧
      e.D = x.body.head.1 ∧ e.T = x.body.head.2 ∧ e.bytesFrom e.cur (x.body.payload ++ bs) := by
  obtain ⟨alert, body⟩ := x
  have hlen : alert.toList.length = (hasAlert (ctrlByte alert.isSome body.head.1 body.head.2)).toNat := by
    rw [hasAlert_ctrlByte]; cases alert <;> rfl
  simp only [Rec.bytes, List.cons_append, List.append_assoc] at h
  obtain ⟨hstep, hbytes⟩ := recordStep_pastHead p h (by rw [← hlen, List.length_append]; omega)
  rw [← hlen, List.drop_left] at hbytes
  exact ⟨_, hstep, rfl, rfl, hasData_ctrlByte _ _ _, dataType_ctrlByte _ _ _, hbytes⟩

/-- At the end of the buffer, and at an ENC record whatever follows, the decode ends `Ok` with the Reading so far (R122,
R120). -/
theorem recordStep_end (p : Params) {tail : ByteString} {d : Datapath} (h : d.bytesFrom d.cur tail)
    (htail : tail = [] ∨ ∃ alert junk, tail = Rec.bytes ⟨alert, .enc⟩ ++ junk) :
    ∃ e, recordStep p d = .finish e ∧ e.id = d.id ∧ e.reading = d.reading := by
  obtain rfl | ⟨alert, junk, rfl⟩ := htail
  · exact ⟨d, if_pos h.len.symm, rfl, rfl⟩
  · obtain ⟨e, hstep, hid, hreading, hD, hT, -⟩ := recordStep_notation p h
    exact ⟨e, by rw [hstep, dispatch_of_D hD, hT]; rfl, hid, hreading⟩

/-- The record loop reads the records in order, and then ends. -/
theorem rloop_notation (p : Params) {recs : List Rec} {tail : ByteString} (hrecs : ∀ x ∈ recs, goesOn p x)
    (htail : tail = [] ∨ ∃ alert junk, tail = Rec.bytes ⟨alert, .enc⟩ ++ junk) {fuel : Nat} {d : Datapath}
    (h : d.bytesFrom d.cur (recs.flatMap Rec.bytes ++ tail)) (hfuel : recs.length < fuel) :
    ∃ e, rloop p fuel d = .finish e ∧ e.id = d.id ∧ e.reading = d.reading.extend recs := by
  induction recs generalizing d fuel with
  | nil =>
    obtain ⟨fuel, rfl⟩ := Nat.exists_eq_add_of_lt hfuel
    obtain ⟨e, hstep, hid, hreading⟩ := recordStep_end p h htail
    exact ⟨e, by simp only [rloop, hstep], hid, by rw [hreading, Reading.extend_nil]⟩
  | cons x xs ih =>
    obtain ⟨n, rfl⟩ := Nat.exists_eq_add_of_lt hfuel
    rw [List.flatMap_cons, List.append_assoc] at h
    obtain ⟨f, hstep, hid, hreading, hD, hT, hbytes⟩ := recordStep_notation p h
    obtain ⟨g, hgo, hgid, hgbytes, hgreading⟩ := dispatch_reads (hrecs x List.mem_cons_self) hD hT hbytes
    obtain ⟨e, hend, heid, hereading⟩ := ih (fun y hy => hrecs y (List.mem_cons_of_mem x hy)) hgbytes
      (fuel := xs.length + 1 + n) (by omega)
    refine ⟨e, ?_, heid.trans (hgid.trans hid), ?_⟩
    · simp only [rloop, hstep, hgo]; exact hend
    · rw [hereading, hgreading, hreading, ← Reading.extend_cons]

/-- Every record has at least its control byte (R83). -/
theorem length_le_length_bytes (recs : List Rec) : recs.length ≤ (recs.flatMap Rec.bytes).length := by
  induction recs with
  | nil => exact Nat.le_refl 0
  | cons x xs ih => simp only [List.flatMap_cons, List.length_append, List.length_cons, Rec.bytes]; omega

/-! ### The header -/

theorem magicFrom_prefix {d : Datapath} {a : Nat} {m bs : ByteString} (h : d.bytesFrom a (m ++ bs)) :
    magicFrom d a m = true := by
  induction m generalizing a with
  | nil => rfl
  | cons b m ih =>
    have hb : memRead d a 1 = .ok (b.zeroExtend 16) := h.memRead_one
    simp [magicFrom, hb, ih h.tail]

/-- The datapath past a header with battery byte `b`, as HDRCHK leaves it (R103, R104, R140). -/
def Datapath.pastHeader (b : Byte) (d : Datapath) : Datapath :=
  { d with phase := .record, batt := b, cur := 7, tempV := false, lightV := false, summary := battSegment b }

/-- Its Reading is the battery alone (R104, R124). -/
theorem Datapath.pastHeader_reading (b : Byte) (d : Datapath) :
    (d.pastHeader b).reading = { battery := b, temperature := none, light := none, summary := battSegment b } := rfl

/-- HDRCHK accepts a header (R100-R104). -/
theorem hdrchk_header {d : Datapath} {b r : Byte} {bs : ByteString} (h : d.bytesFrom 0 (headerBytes b r ++ bs)) :
    hdrchk d = .cont (d.pastHeader b) := by
  have hlen : ¬ d.len < 7 := by rw [h.len]; simp [headerBytes, magic]
  rw [headerBytes, List.append_assoc] at h
  have hb : memRead d 5 1 = .ok (b.zeroExtend 16) := h.append_right.memRead_one
  rw [hdrchk, if_neg hlen, if_pos (magicFrom_prefix h), hb]
  simp [Datapath.pastHeader]

/-- A whole decode of a header and records reads them all: the loop starts from a Reading of the battery alone. -/
theorem decodeRun_notation (p : Params) {b r : Byte} {recs : List Rec} {tail : ByteString} {d : Datapath}
    (h : d.bytesFrom 0 (headerBytes b r ++ (recs.flatMap Rec.bytes ++ tail))) (hrecs : ∀ x ∈ recs, goesOn p x)
    (htail : tail = [] ∨ ∃ alert junk, tail = Rec.bytes ⟨alert, .enc⟩ ++ junk) :
    ∃ e, decodeRun p d = .finish e ∧ e.id = d.id ∧
      e.reading = { battery := b, temperature := lastTemp recs, light := lastLight recs
                    summary := battSegment b ++ recs.flatMap Stmt.segment } := by
  have hfuel : recs.length < d.len + 1 := by
    have := length_le_length_bytes recs
    rw [h.len, List.length_append, List.length_append]; omega
  obtain ⟨e, hend, hid, hreading⟩ := rloop_notation p (d := d.pastHeader b) hrecs htail h.append_right hfuel
  refine ⟨e, by rw [decodeRun, hdrchk_header h]; exact hend, hid, ?_⟩
  rw [hreading, Datapath.pastHeader_reading]
  simp only [Reading.extend, Option.or_none]

/-- Settles O37: a latched payload is read from offset 0 on, header and records. -/
theorem decoderReadsBackTheNotation : Obligations.DecoderReadsBackTheNotation := by
  intro p free id rssi b r recs tail hrecs htail
  rw [List.append_assoc]
  exact decodeRun_notation p (Datapath.holds.bytesFrom ⟨rfl, rfl⟩ (Nat.zero_le _)) hrecs htail

end Sys2Proof.Machine
end

section
/-! PROOFS. The record length of R78 is what an iteration of RLOOP consumes (30_encoding.md R78, 41_records.md R110,
R123). -/

namespace Sys2Proof.Machine

/-! ### Bytes consumed -/

/-- The micro-step `r`, begun at `d`, needs `n` bytes: with them it goes on, the cursor moved past them; without them it
ends `Truncated`. -/
def Consumes (n : Nat) (d : Datapath) (r : Micro) : Prop :=
  (d.cur + n ≤ d.len → ∃ e, r = .cont e ∧ e.cur = d.cur + n) ∧
  (d.len < d.cur + n → ∃ off, r = .raised (.truncated off))

/-- Bytes consumed before a micro-step count with those it consumes. -/
theorem Consumes.after {m n : Nat} {d e : Datapath} {r : Micro} (h : Consumes n e r) (hlen : e.len = d.len)
    (hcur : e.cur = d.cur + m) : Consumes (m + n) d r := by
  obtain ⟨hfits, hpast⟩ := h
  rw [hlen, hcur, Nat.add_assoc] at hfits hpast
  exact ⟨hfits, hpast⟩

theorem consumes_cont {d : Datapath} (h : d.cur ≤ d.len) : Consumes 0 d (.cont d) :=
  ⟨fun _ => ⟨d, rfl, rfl⟩, fun hl => absurd h (Nat.not_le.mpr hl)⟩

theorem consumes_skipPayload (n : Nat) (d : Datapath) : Consumes n d (skipPayload n d) :=
  ⟨fun h => ⟨_, by rw [skipPayload, skip_within h], rfl⟩, fun h => ⟨d.cur, by rw [skipPayload, skip_past h]⟩⟩

theorem consumes_temp {d : Datapath} {bs : ByteString} (h : d.bytesFrom d.cur bs) : Consumes 2 d (temp d) := by
  refine ⟨fun hl => ?_, fun hl => ⟨d.cur, by rw [temp, takeValue_past hl]⟩⟩
  obtain ⟨v, hv⟩ := takeValue_fits h (.inr rfl) hl
  exact ⟨_, by rw [temp, hv], rfl⟩

theorem consumes_lightValue {d : Datapath} {bs : ByteString} (h : d.bytesFrom d.cur bs) {n : Nat} (hn : n = 1 ∨ n = 2)
    (ir : Bool) (res rng : BitVec 2) : Consumes n d (lightValue n ir res rng d) := by
  refine ⟨fun hl => ?_, fun hl => ⟨d.cur, by rw [lightValue, takeValue_past hl]⟩⟩
  obtain ⟨v, hv⟩ := takeValue_fits h hn hl
  exact ⟨_, by rw [lightValue, hv], rfl⟩

/-! ### The length and the record -/

/-- What an answer of `reclen` says of the micro-step `r` that runs the record at the cursor of `d` (R78). -/
def Foretold (d : Datapath) (r : Micro) : RecLen → Prop
  | .bytes n => Consumes n d r
  | .terminal => ∃ e, r = .finish e
  | .illegalLight g => r = .raised (.badLightLen g)
  | .illegalType t => r = .raised (.unknownType t)
  | .missing => True

/-- A branch that both take is a case of each. -/
theorem Foretold.ite {d : Datapath} {q : Prop} [Decidable q] {r r' : Micro} {l l' : RecLen}
    (ht : q → Foretold d r l) (he : ¬ q → Foretold d r' l') :
    Foretold d (if q then r else r') (if q then l else l') := by
  by_cases hq : q
  · rw [if_pos hq, if_pos hq]; exact ht hq
  · rw [if_neg hq, if_neg hq]; exact he hq

/-- LIGHT ends as the length code of its descriptor foretells, `m` bytes into its record (R78, R116). -/
theorem light_foretold (p : Params) {d e : Datapath} {g : Byte} {bs : ByteString} {m : Nat}
    (h : e.bytesFrom e.cur (g :: bs)) (hlen : e.len = d.len) (hcur : e.cur = d.cur + m) :
    Foretold d (light p e)
      (if lenCode g = 2 then .bytes (m + 3)
       else if lenCode g = 1 ∨ p.lightLenLegacy = true then .bytes (m + 2)
       else .illegalLight (lenCode g)) := by
  have hvalue : ∀ n, n = 1 ∨ n = 2 → Consumes (m + 1 + n) d
      (lightValue n (isIR g) (resolution g) (rangeCode g) { e with desc := g, cur := e.cur + 1 }) :=
    fun n hn => (consumes_lightValue h.tail hn _ _ _).after hlen (by rw [← Nat.add_assoc, ← hcur])
  rw [light_bytes p h, lightByLen]
  refine .ite (fun _ => hvalue 2 (.inr rfl)) fun _ => ?_
  rw [lightBadLen]
  by_cases h1 : lenCode g = 1
  · rw [if_pos h1, if_pos (.inl h1)]
    exact hvalue 1 (.inl rfl)
  · rw [if_neg h1]
    simp only [h1, false_or]
    exact .ite (fun _ => hvalue 1 (.inl rfl)) fun _ => rfl

/-- Past the control and alert bytes, the gate and DISPATCH end as `reclen` foretells. -/
theorem dispatch_foretold (p : Params) {d : Datapath} {c : Byte} {rest : ByteString}
    (h : (d.pastHead c).bytesFrom (d.pastHead c).cur (rest.drop (hasAlert c).toNat)) :
    Foretold d (dispatch p (d.pastHead c)) (recLen p (c :: rest)) := by
  have hbase : (d.pastHead c).cur = d.cur + (1 + (hasAlert c).toNat) := Nat.add_assoc _ _ _
  have hdesc : (c :: rest)[1 + (hasAlert c).toNat]? = (rest.drop (hasAlert c).toNat)[0]? := by
    rw [Nat.add_comm, List.getElem?_cons_succ, List.getElem?_drop, Nat.add_zero]
  have hgate : (!hasData c && !(p.termUngated && dataType c == 0x3f)) = !gateOpen p (hasData c) (dataType c) := by
    rw [gateOpen, Bool.not_or]
  rw [recLen, dispatch]
  simp only [hgate, Datapath.pastHead_D, Datapath.pastHead_T, hdesc]
  obtain hopen | hopen := Bool.eq_false_or_eq_true (gateOpen p (hasData c) (dataType c))
  case inr =>
    simp only [hopen, Bool.not_false, if_true, Bool.false_eq_true, if_false]
    exact (consumes_cont (by have := h.len; omega)).after rfl hbase
  case inl =>
    simp only [hopen, Bool.not_true, Bool.false_eq_true, if_false, if_true]
    refine .ite (fun _ => (consumes_skipPayload 2 (d.pastHead c)).after rfl hbase) fun _ => ?_
    refine .ite (fun _ => ?light) fun _ => ?_
    case light =>
      cases hrest : rest.drop (hasAlert c).toNat with
      | nil => trivial
      | cons g bs => rw [hrest] at h; exact light_foretold p h rfl hbase
    refine .ite (fun _ => (consumes_temp h).after rfl hbase) fun _ => ?_
    refine .ite (fun _ => (consumes_skipPayload 1 (d.pastHead c)).after rfl hbase) fun _ => ?_
    exact .ite (fun _ => ⟨_, rfl⟩) fun _ => rfl

/-- A length of `reclen` counts the control and alert bytes and at most 3 more (R78). -/
theorem recLen_bytes_bounds {p : Params} {c : Byte} {rest : ByteString} {n : Nat}
    (h : recLen p (c :: rest) = .bytes n) : 1 + (hasAlert c).toNat ≤ n ∧ n ≤ 4 + (hasAlert c).toNat := by
  simp only [recLen] at h
  repeat' split at h
  all_goals cases h
  all_goals omega

/-- With its control and alert bytes there, an iteration of RLOOP ends as `reclen` foretells. -/
theorem recordStep_foretold (p : Params) {d : Datapath} {c : Byte} {rest : ByteString}
    (h : d.bytesFrom d.cur (c :: rest)) (ha : (hasAlert c).toNat ≤ rest.length) :
    Foretold d (recordStep p d) (recLen p (c :: rest)) := by
  obtain ⟨hstep, hbytes⟩ := recordStep_pastHead p h ha
  rw [hstep]
  exact dispatch_foretold p hbytes

/-- An iteration of RLOOP consumes the length that `reclen` gives, the alert byte included. -/
theorem recordStep_consumes {p : Params} {d : Datapath} {c : Byte} {rest : ByteString} {n : Nat}
    (h : d.bytesFrom d.cur (c :: rest)) (hn : recLen p (c :: rest) = .bytes n) : Consumes n d (recordStep p d) := by
  by_cases ha : (hasAlert c).toNat ≤ rest.length
  · have := recordStep_foretold p h ha
    rwa [hn] at this
  · have hlen := h.tail.len
    obtain ⟨hmin, -⟩ := recLen_bytes_bounds hn
    exact ⟨fun hl => by omega, fun _ => ⟨_, recordStep_missing_alert p h (Nat.lt_of_not_le ha)⟩⟩

/-- Settles O16: the record at the cursor is what `reclen` is given, and the iteration of RLOOP ends as it foretells. -/
theorem recordLengthIsWhatTheRecordStepConsumes : Obligations.RecordLengthIsWhatTheRecordStepConsumes := by
  intro p d bytes hb
  have hat : ∀ hlt : d.cur < bytes.length, d.bytesFrom d.cur (bytes[d.cur] :: bytes.drop (d.cur + 1)) := fun hlt => by
    rw [← List.drop_eq_getElem_cons hlt]
    exact hb.bytesFrom (Nat.le_of_lt hlt)
  refine ⟨fun n hn => ?length, fun c hc hl => ?verdict⟩
  case length =>
    obtain hlt | hge := Nat.lt_or_ge d.cur bytes.length
    · rw [List.drop_eq_getElem_cons hlt] at hn
      obtain ⟨hmin, hmax⟩ := recLen_bytes_bounds hn
      have hone := Bool.toNat_le (hasAlert bytes[d.cur])
      exact ⟨by omega, by omega, recordStep_consumes (hat hlt) hn⟩
    · rw [List.drop_eq_nil_of_le hge] at hn
      cases hn
  case verdict =>
    obtain ⟨hlt, rfl⟩ := List.getElem?_eq_some_iff.mp hc
    have hend := recordStep_foretold p (hat hlt) (by have := (hat hlt).tail.len; omega)
    rw [List.drop_eq_getElem_cons hlt]
    refine ⟨fun hr => ?_, fun g hr => ?_, fun t hr => ?_⟩
    all_goals rwa [hr] at hend

end Sys2Proof.Machine
end

section
/-! PROOFS. The header validator: what it refuses and what it accepts (40_header.md R100-R105). -/

namespace Sys2Proof.Machine

/-! ### The magic prefix -/

/-- The converse of `magicFrom_prefix`: bytes found to match the prefix begin with it (R102). -/
theorem prefix_of_magicFrom {d : Datapath} {a : Nat} {m bs : ByteString} (h : d.bytesFrom a bs)
    (hm : magicFrom d a m = true) : m <+: bs := by
  induction m generalizing a bs with
  | nil => exact List.nil_prefix
  | cons x m ih =>
    cases bs with
    | nil =>
      have hpast : memRead d a 1 = .error (.truncated a) := memRead_past (by rw [h.len]; exact Nat.lt_succ_self a)
      simp [magicFrom, hpast] at hm
    | cons b bs =>
      simp only [magicFrom, h.memRead_one, Bool.and_eq_true, beq_iff_eq] at hm
      obtain ⟨hx, hm⟩ := hm
      have hbx : b = x := by simpa using congrArg (BitVec.setWidth 8) hx
      exact List.cons_prefix_cons.mpr ⟨hbx.symm, ih h.tail hm⟩

/-! ### The three ends of HDRCHK -/

theorem hdrchk_short {d : Datapath} (h : d.len < 7) : hdrchk d = .raised .notOursShort := if_pos h

theorem hdrchk_wrong_magic {d : Datapath} {bytes : ByteString} (h : d.holds bytes) (hlen : 7 ≤ bytes.length)
    (hmagic : bytes.take 5 ≠ magic) : hdrchk d = .raised .notOursMagic := by
  have hlong : ¬ d.len < 7 := by rw [h.2]; omega
  have hdiffers : ¬ magicFrom d 0 magic = true := fun hm =>
    hmagic (List.prefix_iff_eq_take.mp (prefix_of_magicFrom (h.bytesFrom (Nat.zero_le _)) hm)).symm
  rw [hdrchk, if_neg hlong, if_neg hdiffers]

/-- On a decode in progress exec of HDR settles HDRCHK (R100). -/
theorem exec_hdr {s : State} {d : Datapath} (h : s.decode = some d) : exec .hdr s = .next (settle (hdrchk d) s) := by
  rw [exec_micro (i := .hdr) rfl, runMicro_some h]

/-- Settles O23: exec of HDR settles the end of HDRCHK, which is a `raise` for a short payload and for a wrong prefix,
and the datapath past the header for one of ours. -/
theorem headerValidatorAcceptsExactlyOurPayloads : Obligations.HeaderValidatorAcceptsExactlyOurPayloads := by
  intro s d bytes hd h
  rw [exec_hdr hd]
  refine ⟨fun hlen => ?short, fun hlen hmagic => ?wrong, fun b r rest hours => ?ours⟩
  case short =>
    rw [hdrchk_short (h.2 ▸ hlen)]; rfl
  case wrong =>
    rw [hdrchk_wrong_magic h hlen hmagic]; rfl
  case ours =>
    have hheader : d.bytesFrom 0 (headerBytes b r ++ rest) := hours ▸ h.bytesFrom (Nat.zero_le _)
    rw [hdrchk_header hheader]; rfl

end Sys2Proof.Machine
end

section
/-! PROOFS. The records: the loop around them, the alert byte, and what each row does (41_records.md R110-R123). -/

namespace Sys2Proof.Machine

open Sys2Proof.Stmt

/-! ### What the statements call the ends of a micro-step -/

theorem settle_cont (d : Datapath) (s : State) : settle (.cont d) s = going s d := rfl

theorem settle_raised (c : Cause) (s : State) : settle (.raised c) s = failed s c.code c.info := rfl

/-- The gauges of a Reading, as the two registers they come from show them (R185). -/
theorem gauges_reading (id : ByteString) (d : Datapath) :
    gauges id d.reading = [.gauge id .battery d.batt.toNat] ++
      (if d.tempV = true then [.gauge id .temperature d.tempRaw.toInt] else []) := by
  cases h : d.tempV <;> simp [gauges, Datapath.reading, h]

/-- `finish Ok` leaves the state that R182 describes. -/
theorem afterOk_settle_finish (d : Datapath) (s : State) : afterOk d s (settle (.finish d) s) := by
  rw [afterOk, settle, finishOk_eq, gauges_reading, ← List.append_assoc]

/-! ### The record loop -/

/-- Settles O8: the fetch finds a byte at the cursor, and hands exec the row it decodes to. -/
theorem stepRunsTheRecordAtTheCursor : Obligations.StepRunsTheRecordAtTheCursor := by
  intro s d b hd hphase hlt hb
  have hmore : ¬ d.cur = d.len := Nat.ne_of_lt hlt
  simp only [step, fetch, hd, fetchMicro, hphase, if_neg hmore, fetchCtrl_within hlt hb, going]

/-- Settles O11: with the cursor at `len` the iteration of RLOOP is `finish Ok`. -/
theorem endOfBufferFinishesTheDecode : Obligations.EndOfBufferFinishesTheDecode := by
  intro s d hd hphase hend
  have hfinish : microStep s.params d = .finish d := by simp only [microStep, hphase, recordStep, if_pos hend]
  exact ⟨_, step_decode hd, hfinish ▸ afterOk_settle_finish d s⟩

/-- Settles O34: a latched payload is a datapath, and its whole decode ends by `decodeRun_ends`. -/
theorem everyDecodeEnds : Obligations.EveryDecodeEnds := by
  intro p free t d hcont
  obtain ⟨c, hraise⟩ | ⟨e, hfinish, -⟩ := decodeRun_ends p (latch free t)
  · cases hcont.symm.trans hraise
  · cases hcont.symm.trans hfinish

/-! ### The alert byte -/

/-- The seven rows of the record space are the alert skip, then a handler that does not look at `A` (R110). -/
theorem microOf_record (p : Params) {i : Bool → Instr}
    (hi : (∃ t, i = fun a => .nop a t) ∨ i = .motion ∨ i = .light ∨ i = .temp ∨ i = .pair ∨ i = .enc ∨
      (∃ t, i = fun a => .unknown a t)) :
    ∃ f, ∀ a, microOf p (i a) = some (withAlert a f) := by
  obtain ⟨t, rfl⟩ | rfl | rfl | rfl | rfl | rfl | ⟨t, rfl⟩ := hi <;> exact ⟨_, fun _ => rfl⟩

/-- A missing alert byte ends the decode `Truncated` (R112). -/
theorem exec_alert_past {i : Instr} {s : State} {d : Datapath} {f : Datapath → Micro} (hd : s.decode = some d)
    (hm : microOf s.params i = some (withAlert true f)) (hl : d.len < d.cur + 1) :
    exec i s = .next (failed s .failTruncated d.cur) := by
  rw [exec_micro hm, runMicro_some hd, withAlert_past f hl, settle_raised]
  rfl

/-- With its alert byte there, a record runs as the one without from the next byte on (R112). -/
theorem exec_alert_within {i j : Instr} {s : State} {d : Datapath} {f : Datapath → Micro} (hd : s.decode = some d)
    (hi : microOf s.params i = some (withAlert true f)) (hj : microOf s.params j = some (withAlert false f))
    (hl : d.cur + 1 ≤ d.len) : exec i s = exec j (going s { d with cur := d.cur + 1 }) := by
  rw [exec_withAlert hd hi hl, exec_withAlert (s := going s { d with cur := d.cur + 1 }) rfl hj hl, settle_going]
  rfl

/-- Settles O24: each of the seven rows skips its alert byte before its handler. -/
theorem alertByteIsSkippedFirst : Obligations.AlertByteIsSkippedFirst := by
  intro s d i hd hi
  obtain ⟨f, hf⟩ := microOf_record s.params hi
  exact ⟨exec_alert_past hd (hf true), exec_alert_within hd (hf true) (hf false)⟩

/-! ### The records without a value -/

/-- ENC past its alert byte is `finish Ok` (R120). -/
theorem exec_enc {s : State} {d : Datapath} {a : Bool} (hd : s.decode = some d) (hl : d.cur + a.toNat ≤ d.len) :
    exec (.enc a) s = .next (settle (.finish { d with cur := d.cur + a.toNat }) s) :=
  exec_withAlert (f := enc) hd rfl hl

/-- Settles O25: past the alert byte the gate is shut, or open for type 0x3f alone, which goes to ENC. -/
theorem nopRecordIsSkippedWhateverItsType : Obligations.NopRecordIsSkippedWhateverItsType := by
  intro s d a t hd hl
  rw [exec_withAlert (i := .nop a t) (f := nodata s.params t) hd rfl hl]
  refine ⟨fun hgated => ?_, fun hterm ht => ?_⟩
  · have hshut : ¬ gateOpen s.params false t = true := by simpa [gateOpen] using hgated
    rw [nodata, if_neg hshut, settle_cont]
  · have hopen : gateOpen s.params false t = true := by simp [gateOpen, hterm, ht]
    rw [nodata, if_pos hopen, exec_enc hd hl, enc]

/-- A payload that fits is skipped unread (R115, R119). -/
theorem skipPayload_within {d : Datapath} {n : Nat} (hl : d.cur + n ≤ d.len) :
    skipPayload n d = .cont { d with cur := d.cur + n } := by
  rw [skipPayload, skip_within hl]

theorem skipPayload_past {d : Datapath} {n : Nat} (hl : d.len < d.cur + n) :
    skipPayload n d = .raised (.truncated d.cur) := by
  rw [skipPayload, skip_past hl]

/-- Settles O26: both rows are a skip of their payload past the alert byte. -/
theorem motionAndPairSkipTheirPayload : Obligations.MotionAndPairSkipTheirPayload := by
  refine ⟨rfl, rfl, rfl, rfl, fun s d a hd hl => ?_⟩
  rw [exec_withAlert (i := .motion a) (f := motion) hd rfl hl, exec_withAlert (i := .pair a) (f := pair) hd rfl hl]
  refine ⟨fun hfits => ?_, fun hpast => ?_, fun hfits => ?_, fun hpast => ?_⟩
  · rw [motion, skipPayload_within hfits, settle_cont]
  · rw [motion, skipPayload_past hpast]; rfl
  · rw [pair, skipPayload_within hfits, settle_cont]
  · rw [pair, skipPayload_past hpast]; rfl

/-- Settles O31: ENC is `finish Ok`, which reads neither the cursor nor the bytes after it. -/
theorem encEndsTheDecodeOk : Obligations.EncEndsTheDecodeOk :=
  ⟨rfl, rfl, fun s _ _ hd hl => ⟨_, exec_enc hd hl, afterOk_settle_finish _ s⟩⟩

/-- Settles O32: past the alert byte the row is a raise. -/
theorem unknownTypeFailsTheDecode : Obligations.UnknownTypeFailsTheDecode := by
  intro s d a t hd hl
  rw [exec_withAlert (i := .unknown a t) (f := unknown t) hd rfl hl, unknown, settle_raised]
  rfl

/-! ### Values at the cursor -/

theorem takeValue_one_of_read {d : Datapath} {v : Byte} (hl : d.cur + 1 ≤ d.len) (hv : d.buf.read d.cur = some v) :
    takeValue 1 d = .ok (v.zeroExtend 16, { d with cur := d.cur + 1 }) := by
  rw [takeValue, memRead_one hl hv]

theorem takeValue_two_of_read {d : Datapath} {lo hi : Byte} (hl : d.cur + 2 ≤ d.len) (hlo : d.buf.read d.cur = some lo)
    (hhi : d.buf.read (d.cur + 1) = some hi) : takeValue 2 d = .ok (hi ++ lo, { d with cur := d.cur + 2 }) := by
  rw [takeValue, memRead_two hl hlo hhi]

/-- Settles O27: past the alert byte TEMP takes a two-byte value, or raises where it would begin. -/
theorem tempReadsASignedHalfword : Obligations.TempReadsASignedHalfword := by
  refine ⟨rfl, rfl, fun s d a hd hl => ?_⟩
  rw [exec_withAlert (i := .temp a) (f := temp) hd rfl hl]
  refine ⟨fun lo hi hfits hlo hhi => ?_, fun hpast => ?_⟩
  · rw [temp, takeValue_two_of_read hfits hlo hhi]; rfl
  · rw [temp, takeValue_past hpast]; rfl

/-! ### Light descriptors and their values -/

/-- Settles O29: a field of a byte is a quotient by a power of two, modulo another. -/
theorem lightDescriptorFieldsAreItsBits : Obligations.LightDescriptorFieldsAreItsBits := by
  intro b
  refine ⟨BitVec.msb_eq_decide b, ?_, ?_, ?_⟩
  · rw [resolution, BitVec.extractLsb'_toNat, Nat.shiftRight_eq_div_pow]
  · rw [rangeCode, BitVec.extractLsb'_toNat, Nat.shiftRight_eq_div_pow]
  · rw [lenCode, BitVec.extractLsb'_toNat, Nat.shiftRight_zero]

theorem lightValue_one_of_read {d : Datapath} {v : Byte} (hl : d.cur + 1 ≤ d.len) (hv : d.buf.read d.cur = some v)
    (ir : Bool) (res rng : BitVec 2) :
    lightValue 1 ir res rng d = .cont (commitLight ir res rng (v.zeroExtend 16) { d with cur := d.cur + 1 }) := by
  rw [lightValue, takeValue_one_of_read hl hv]

theorem lightValue_two_of_read {d : Datapath} {lo hi : Byte} (hl : d.cur + 2 ≤ d.len)
    (hlo : d.buf.read d.cur = some lo) (hhi : d.buf.read (d.cur + 1) = some hi) (ir : Bool) (res rng : BitVec 2) :
    lightValue 2 ir res rng d = .cont (commitLight ir res rng (hi ++ lo) { d with cur := d.cur + 2 }) := by
  rw [lightValue, takeValue_two_of_read hl hlo hhi]

theorem lightValue_past {d : Datapath} {n : Nat} (hl : d.len < d.cur + n) (ir : Bool) (res rng : BitVec 2) :
    lightValue n ir res rng d = .raised (.truncated d.cur) := by
  rw [lightValue, takeValue_past hl]

theorem lightBadLen_legacy {p : Params} (hp : p.lightLenLegacy = true) (g : BitVec 2) (ir : Bool) (res rng : BitVec 2)
    (d : Datapath) : lightBadLen p g ir res rng d = lightValue 1 ir res rng d := if_pos hp

theorem lightBadLen_strict {p : Params} (hp : p.lightLenLegacy = false) (g : BitVec 2) (ir : Bool) (res rng : BitVec 2)
    (d : Datapath) : lightBadLen p g ir res rng d = .raised (.badLightLen g) := if_neg (by simp [hp])

/-- Length code 1, and under `P_LIGHT_LEN_LEGACY` every code but 2, stands for a value of one byte (R116, R76). -/
theorem lightByLen_one_byte {p : Params} {g : BitVec 2} (hg : g = 1 ∨ (g ≠ 2 ∧ p.lightLenLegacy = true)) (ir : Bool)
    (res rng : BitVec 2) (d : Datapath) : lightByLen p g ir res rng d = lightValue 1 ir res rng d := by
  obtain rfl | ⟨hne, hp⟩ := hg
  · rfl
  · rw [lightByLen, if_neg hne, lightBadLen_legacy hp, ite_self]

/-- Otherwise length codes 0 and 3 raise before any value byte is read (R76). -/
theorem lightByLen_bad {p : Params} {g : BitVec 2} (hg : g = 0 ∨ g = 3) (hp : p.lightLenLegacy = false) (ir : Bool)
    (res rng : BitVec 2) (d : Datapath) : lightByLen p g ir res rng d = .raised (.badLightLen g) := by
  obtain rfl | rfl := hg <;> exact lightBadLen_strict hp _ ir res rng d

theorem light_past {p : Params} {d : Datapath} (hl : d.len < d.cur + 1) : light p d = .raised (.truncated d.cur) := by
  rw [light, takeDesc, memRead_past hl]

theorem light_of_read (p : Params) {d : Datapath} {g : Byte} (hl : d.cur + 1 ≤ d.len) (hg : d.buf.read d.cur = some g) :
    light p d = lightByLen p (lenCode g) (isIR g) (resolution g) (rangeCode g) { d with desc := g, cur := d.cur + 1 } := by
  rw [light, takeDesc_within hl hg]

/-- Settles O28: past the alert byte LIGHT takes its descriptor, whose length code picks the arm; the value is then
taken, or missing, one byte further. -/
theorem lightReadsDescriptorThenValue : Obligations.LightReadsDescriptorThenValue := by
  refine ⟨rfl, rfl, ?_⟩
  rintro s d a _ hd rfl hl
  rw [exec_withAlert (i := .light a) (f := light s.params) hd rfl hl]
  refine ⟨fun hpast => by rw [light_past hpast]; rfl, fun g hdesc hg => ?_⟩
  rw [light_of_read s.params hdesc hg]
  refine ⟨fun lo hi hlen hfits hlo hhi => ?two, fun v hlen hfits hv => ?one, fun hlen hp => ?bad,
    fun hlen hpast => ?twoMissing, fun hlen hpast => ?oneMissing⟩
  case two => rw [hlen, lightByLen_two, lightValue_two_of_read hfits hlo hhi]; rfl
  case one => rw [lightByLen_one_byte hlen, lightValue_one_of_read hfits hv]; rfl
  case bad => rw [lightByLen_bad hlen hp, settle_raised]; rfl
  case twoMissing => rw [hlen, lightByLen_two, lightValue_past hpast]; rfl
  case oneMissing => rw [lightByLen_one_byte hlen, lightValue_past hpast]; rfl

section DescriptorRows

variable {s : State} {d : Datapath} (hd : s.decode = some d) (ir spare : Bool) (res rng : BitVec 2)

include hd

/-! On a decode in progress exec of a descriptor row settles its value, or its raise (R116). -/

theorem exec_light8 : exec (.light8 ir spare res rng) s = .next (settle (lightValue 1 ir res rng d) s) := by
  rw [exec_micro (i := .light8 ..) rfl, runMicro_some hd]

theorem exec_light16 : exec (.light16 ir spare res rng) s = .next (settle (lightValue 2 ir res rng d) s) := by
  rw [exec_micro (i := .light16 ..) rfl, runMicro_some hd]

theorem exec_lightBadLen0 :
    exec (.lightBadLen0 ir spare res rng) s = .next (settle (lightBadLen s.params 0 ir res rng d) s) := by
  rw [exec_micro (i := .lightBadLen0 ..) rfl, runMicro_some hd]

theorem exec_lightBadLen3 :
    exec (.lightBadLen3 ir spare res rng) s = .next (settle (lightBadLen s.params 3 ir res rng d) s) := by
  rw [exec_micro (i := .lightBadLen3 ..) rfl, runMicro_some hd]

/-- LIGHT8, and the bad lengths under `P_LIGHT_LEN_LEGACY`, are one and the same one-byte value (R116, R76). -/
theorem exec_one_byte_rows {r : Micro} (hr : lightValue 1 ir res rng d = r) :
    exec (.light8 ir spare res rng) s = .next (settle r s) ∧
    (s.params.lightLenLegacy = true → exec (.lightBadLen0 ir spare res rng) s = .next (settle r s) ∧
      exec (.lightBadLen3 ir spare res rng) s = .next (settle r s)) := by
  rw [exec_light8 hd, exec_lightBadLen0 hd, exec_lightBadLen3 hd, ← hr]
  exact ⟨rfl, fun hp => by rw [lightBadLen_legacy hp, lightBadLen_legacy hp]; exact ⟨rfl, rfl⟩⟩

end DescriptorRows

/-- Settles O30: a value that is there is committed, a missing one raises, and a bad length raises by its code. -/
theorem descriptorRowsTakeTheirValue : Obligations.DescriptorRowsTakeTheirValue := by
  intro s d ir spare res rng hd
  refine ⟨fun v hfits hv => ?one, fun lo hi hfits hlo hhi => ?two, fun hp => ?bad, fun hpast => ?oneMissing,
    fun hpast => ?twoMissing⟩
  case one => exact exec_one_byte_rows hd ir spare res rng (lightValue_one_of_read hfits hv ir res rng)
  case two => rw [exec_light16 hd, lightValue_two_of_read hfits hlo hhi]; rfl
  case bad =>
    rw [exec_lightBadLen0 hd, exec_lightBadLen3 hd, lightBadLen_strict hp, lightBadLen_strict hp]
    exact ⟨rfl, rfl⟩
  case oneMissing => exact exec_one_byte_rows hd ir spare res rng (lightValue_past hpast ir res rng)
  case twoMissing => rw [exec_light16 hd, lightValue_past hpast]; rfl

end Sys2Proof.Machine
end

section
/-! PROOFS. The summary text: the tenths of a temperature (42_summary.md R143), when two summaries are equal (R147), and
that a summary fits its slot (R146). -/

namespace Sys2Proof.Machine

open Sys2Proof.Stmt

/-! ### Temperatures in tenths -/

/-- The text of `q` tenths of a degree: what `fmtTemp` writes once it has rounded (R143). -/
def tenthsText (q : Int) : ByteString :=
  (if q < 0 then [0x2d] else []) ++ dec (q.natAbs / 10) ++ [0x2e] ++ dec (q.natAbs % 10)

theorem fmtTemp_eq (t : Int) : fmtTemp t = tenthsText (rhe (5 * t) 8) := rfl

/-- The tenths digit that R143's table gives for `r` sixteenths. -/
def tenthsDigit (r : Nat) : Nat := [0, 1, 1, 2, 2, 3, 4, 4, 5, 6, 6, 7, 8, 8, 9, 9].getD r 0

/-- The table is the rounding of less than one degree. -/
theorem rhe_tenthsDigit : ∀ r : Nat, r < 16 → rhe (5 * (r : Int)) 8 = tenthsDigit r ∧ tenthsDigit r < 10 := by decide

/-- Rounding never carries into the whole degrees, which are an even number of tenths. -/
theorem rhe_whole_degrees (w r : Int) : rhe (5 * (16 * w + r)) 8 = 10 * w + rhe (5 * r) 8 := by
  rw [rhe_eighths, rhe_eighths]; omega

/-- Ties go to the even digit on both sides of zero alike. -/
theorem rhe_tenths_neg (t : Int) : rhe (5 * -t) 8 = -rhe (5 * t) 8 := by
  rw [rhe_eighths, rhe_eighths]; omega

/-- The tenths of `n` sixteenths: ten for each whole degree, and the table's digit. -/
theorem rhe_tenths_natCast (n : Nat) : rhe (5 * (n : Int)) 8 = (10 * (n / 16) + tenthsDigit (n % 16) : Nat) := by
  have hn : (n : Int) = 16 * (n / 16 : Nat) + (n % 16 : Nat) := by omega
  rw [hn, rhe_whole_degrees, (rhe_tenthsDigit _ (Nat.mod_lt n (by decide))).1]
  push_cast
  rfl

theorem rhe_tenths_natAbs (t : Int) :
    (rhe (5 * t) 8).natAbs = 10 * (t.natAbs / 16) + tenthsDigit (t.natAbs % 16) := by
  obtain h | h := Int.natAbs_eq t
  · have hq := rhe_tenths_natCast t.natAbs
    rw [← h] at hq
    rw [hq, Int.natAbs_natCast]
  · have hq := rhe_tenths_neg t.natAbs
    rw [← h, rhe_tenths_natCast] at hq
    rw [hq, Int.natAbs_neg, Int.natAbs_natCast]

/-- No temperature but zero rounds to zero tenths, so the sign is that of the temperature. -/
theorem rhe_tenths_neg_iff (t : Int) : rhe (5 * t) 8 < 0 ↔ t < 0 := by
  rw [rhe_eighths]; omega

/-- Settles O19: the tenths are ten for each whole degree and the table's digit, which is below ten. -/
theorem fmtTempFollowsTheTenthsTable : Obligations.FmtTempFollowsTheTenthsTable := by
  intro t
  refine ⟨rfl, ?_⟩
  have hdigit := (rhe_tenthsDigit (t.natAbs % 16) (Nat.mod_lt _ (by decide))).2
  have hwhole : (10 * (t.natAbs / 16) + tenthsDigit (t.natAbs % 16)) / 10 = t.natAbs / 16 := by omega
  have htenth : (10 * (t.natAbs / 16) + tenthsDigit (t.natAbs % 16)) % 10 = tenthsDigit (t.natAbs % 16) := by omega
  simp only [fmtTemp_eq, tenthsText, rhe_tenths_neg_iff, rhe_tenths_natAbs, hwhole, htenth]
  rfl

/-! ### Texts that a separator takes apart -/

/-- What stands before the first separator, and after it, can be read off. -/
theorem append_cons_inj_of_notMem_left {sep : Byte} {x y z w : ByteString} (hx : sep ∉ x) (hy : sep ∉ y)
    (h : x ++ sep :: z = y ++ sep :: w) : x = y ∧ z = w := by
  induction x generalizing y with
  | nil =>
    cases y with
    | nil => exact ⟨rfl, (List.cons.inj h).2⟩
    | cons b y => exact absurd ((List.cons.inj h).1 ▸ List.mem_cons_self) hy
  | cons a x ih =>
    cases y with
    | nil => exact absurd ((List.cons.inj h).1 ▸ List.mem_cons_self) hx
    | cons b y =>
      obtain ⟨rfl, htail⟩ := List.cons.inj h
      obtain ⟨rfl, hz⟩ := ih (List.not_mem_of_not_mem_cons hx) (List.not_mem_of_not_mem_cons hy) htail
      exact ⟨rfl, hz⟩

/-- A first part, and then texts that each stand behind a separator and do not hold it: the text tells its parts. -/
theorem separated_inj {α : Type} {sep : Byte} {g : α → ByteString} (hg : ∀ a, sep ∉ g a) (hinj : Function.Injective g)
    {x y : ByteString} {as bs : List α} (hx : sep ∉ x) (hy : sep ∉ y)
    (h : x ++ as.flatMap (fun a => sep :: g a) = y ++ bs.flatMap (fun b => sep :: g b)) : x = y ∧ as = bs := by
  induction as generalizing x y bs with
  | nil =>
    cases bs with
    | nil => exact ⟨by simpa using h, rfl⟩
    | cons b bs =>
      have hsep : x = y ++ sep :: (g b ++ bs.flatMap fun b => sep :: g b) := by simpa using h
      exact absurd (by simp [hsep]) hx
  | cons a as ih =>
    cases bs with
    | nil =>
      have hsep : y = x ++ sep :: (g a ++ as.flatMap fun a => sep :: g a) := by simpa using h.symm
      exact absurd (by simp [hsep]) hy
    | cons b bs =>
      obtain ⟨rfl, htail⟩ := append_cons_inj_of_notMem_left hx hy h
      obtain ⟨hab, rfl⟩ := ih (hg a) (hg b) htail
      exact ⟨rfl, by rw [hinj hab]⟩

/-! ### Numbers in a text -/

/-- A decimal text reads back as its number, so it tells it. -/
theorem dec_injective : Function.Injective dec := Function.LeftInverse.injective readDecimal_dec

/-- A byte that is no digit stands in no decimal text. -/
theorem notMem_dec {b : Byte} (hb : b.toNat < 0x30 ∨ 0x39 < b.toNat) (n : Nat) : b ∉ dec n := by
  intro h
  have := dec_digits n b h
  omega

/-- A sign and a number tell both: no number begins with a minus. -/
theorem sign_dec_inj {P Q : Prop} [Decidable P] [Decidable Q] {m n : Nat}
    (h : (if P then [0x2d] else []) ++ dec m = (if Q then [0x2d] else []) ++ dec n) : (P ↔ Q) ∧ m = n := by
  by_cases hP : P <;> by_cases hQ : Q <;> simp only [hP, hQ, if_true, if_false, List.nil_append] at h
  · exact ⟨by simp [hP, hQ], dec_injective (List.append_cancel_left h)⟩
  · exact absurd (h ▸ List.mem_append_left _ (List.mem_singleton_self _)) (notMem_dec (b := 0x2d) (by decide) n)
  · exact absurd (h ▸ List.mem_append_left _ (List.mem_singleton_self _)) (notMem_dec (b := 0x2d) (by decide) m)
  · exact ⟨by simp [hP, hQ], dec_injective h⟩

/-- The point parts the whole degrees from the tenths. -/
theorem tenthsText_injective : Function.Injective tenthsText := by
  intro p q h
  have hpoint : ∀ q : Int, 0x2e ∉ (if q < 0 then [0x2d] else []) ++ dec (q.natAbs / 10) := by
    intro q; split <;> simp [notMem_dec (b := 0x2e#8) (by decide)]
  obtain ⟨hwhole, htenth⟩ := append_cons_inj_of_notMem_left (hpoint p) (hpoint q) (by simpa [tenthsText] using h)
  obtain ⟨hsign, hdiv⟩ := sign_dec_inj hwhole
  have hmod := dec_injective htenth
  omega

theorem battSegment_injective : Function.Injective battSegment := by
  intro b c h
  exact BitVec.eq_of_toNat_eq (dec_injective (List.append_cancel_left (List.append_cancel_right h)))

/-! ### Values in a summary -/

/-- The segment of a value, without the space before it (R141, R142). -/
def valueWord : Value → ByteString
  | .light ir res rng val =>
    txtLight.tail ++ (irText ir ++ [res.toNat, rng.toNat, val.toNat].flatMap (fun n => 0x2f :: dec n))
  | .temp q => txtTemp.tail ++ (tenthsText q ++ txtDegC)

/-- A record's segment is a space and the word of its value, or nothing (R144). -/
theorem segment_eq (r : Rec) : segment r = (value r).toList.flatMap (fun v => 0x20 :: valueWord v) := by
  obtain ⟨alert, body⟩ := r
  cases body <;> simp [Stmt.segment, value, valueWord, lightSegment, tempSegment, fmtTemp_eq, txtLight, txtTemp, txtSlash]

theorem flatMap_segment (rs : List Rec) :
    rs.flatMap segment = (rs.filterMap value).flatMap (fun v => 0x20 :: valueWord v) := by
  rw [List.filterMap_eq_flatMap_toList, List.flatMap_assoc]
  exact List.flatMap_congr fun r _ => segment_eq r

theorem space_notMem_battSegment (b : Byte) : 0x20 ∉ battSegment b := by
  simp [battSegment, txtBatt, txtPercent, notMem_dec (b := 0x20#8) (by decide)]

/-- The only space of a segment is its first byte. -/
theorem space_notMem_valueWord (v : Value) : 0x20 ∉ valueWord v := by
  have hdec := notMem_dec (b := 0x20#8) (by decide)
  cases v with
  | light ir res rng val => cases ir <;> simp [valueWord, txtLight, irText, txtTrue, txtFalse, hdec]
  | temp q => by_cases hq : q < 0 <;> simp [valueWord, txtTemp, tenthsText, txtDegC, hdec, hq]

theorem irText_injective : Function.Injective irText := by decide

theorem slash_notMem_irText : ∀ ir, 0x2f ∉ irText ir := by decide

/-- The first byte tells a light from a temperature, the slashes part the fields of a light. -/
theorem valueWord_injective : Function.Injective valueWord := by
  intro v w h
  cases v with
  | light ir res rng val =>
    cases w with
    | light ir' res' rng' val' =>
      obtain ⟨hir, hfields⟩ := separated_inj (notMem_dec (by decide)) dec_injective (slash_notMem_irText ir)
        (slash_notMem_irText ir') (List.append_cancel_left h)
      simp only [List.cons.injEq, BitVec.toNat_inj, and_true] at hfields
      obtain ⟨rfl, rfl, rfl⟩ := hfields
      rw [irText_injective hir]
    | temp q => simp [valueWord, txtLight, txtTemp] at h
  | temp p =>
    cases w with
    | light ir res rng val => simp [valueWord, txtLight, txtTemp] at h
    | temp q => rw [tenthsText_injective (List.append_cancel_right (List.append_cancel_left h))]

/-- Settles O20: the spaces of a summary part the battery segment and the words of its values, and each part tells what
it is the text of. -/
theorem summariesAreEqualExactlyWhenTheirFieldsAre : Obligations.SummariesAreEqualExactlyWhenTheirFieldsAre := by
  intro b b' rs rs'
  rw [flatMap_segment, flatMap_segment]
  constructor
  · intro h
    obtain ⟨hbatt, hvalues⟩ := separated_inj space_notMem_valueWord valueWord_injective (space_notMem_battSegment b)
      (space_notMem_battSegment b') h
    exact ⟨battSegment_injective hbatt, hvalues⟩
  · rintro ⟨rfl, hvalues⟩
    rw [hvalues]

/-! ### Room in a slot -/

/-- A longer payload has the larger bound. -/
theorem summary_bound_mono {p : Params} {n : Nat} (hn : n ≤ p.maxPayload) :
    9 + (20 * (n - 7) + 2) / 3 ≤ p.summaryMax := by
  unfold Params.summaryMax; omega

/-- Settles O21: the bound is that of `decodeRun_ends`, at the length the latch takes from the payload. -/
theorem summaryNeverOverflowsItsSlot : Obligations.SummaryNeverOverflowsItsSlot := by
  intro p free t d hfinish
  have hbound : d.summary.length ≤ 9 + (20 * (t.payload.length - 7) + 2) / 3 := by
    obtain ⟨c, hraise⟩ | ⟨e, hend, -, -, hsum⟩ := decodeRun_ends p (latch free t)
    · cases hfinish.symm.trans hraise
    · obtain rfl : d = e := Micro.finish.inj (hfinish.symm.trans hend)
      have hlen : (latch free t).len = t.payload.length := rfl
      omega
  exact ⟨hbound, fun hfits => hbound.trans (summary_bound_mono hfits)⟩

end Sys2Proof.Machine
end

section
/-! PROOFS. The register-file operations as instructions of their own: LOOKUP, APPLY and DRAIN (43_regfile.md R160-R167,
R170). -/

namespace Sys2Proof.Machine

/-! ### LOOKUP -/

/-- Settles O49: LOOKUP answers `lookupKey`, which hits as `lookupKey_some_iff` says. -/
theorem lookupHitsExactlyTheSlotWithTheKey : Obligations.LookupHitsExactlyTheSlotWithTheKey :=
  fun s k h => ⟨lookupKey s.rf k, rfl, lookupKey_some_iff h k⟩

/-- A slot of a sound register file has its widths (R22). -/
theorem RfWf.slot_wf {p : Params} {rf : List Slot} (h : RfWf p rf) {i : Nat} {r : Slot} (hr : rf[i]? = some r) :
    r.wf p := by
  obtain ⟨-, hslots, -⟩ := h
  exact hslots r (List.mem_of_getElem? hr)

/-- A slot that LOOKUP hits is valid and holds the key. -/
theorem lookupKey_hit {p : Params} {rf : List Slot} (h : RfWf p rf) {k : ByteString} {i : Nat} {r : Slot}
    (hhit : lookupKey rf k = some i) (hr : rf[i]? = some r) : r.valid = true ∧ r.keyBytes = k := by
  obtain ⟨r', hr', hfound⟩ := (lookupKey_some_iff h k i).mp hhit
  cases hr.symm.trans hr'
  exact hfound

/-! ### The slots APPLY writes -/

@[simp] theorem Slot.create_keyBytes (id sum : ByteString) (r : Slot) : (Slot.create id sum r).keyBytes = id :=
  overwrite_take id r.key

@[simp] theorem Slot.create_sumBytes (id sum : ByteString) (r : Slot) : (Slot.create id sum r).sumBytes = sum :=
  overwrite_take sum r.sum

@[simp] theorem Slot.replace_keyBytes (sum : ByteString) (r : Slot) : (Slot.replace sum r).keyBytes = r.keyBytes := rfl

@[simp] theorem Slot.replace_sumBytes (sum : ByteString) (r : Slot) : (Slot.replace sum r).sumBytes = sum :=
  overwrite_take sum r.sum

/-- The negative form of `Slot.differs_iff`. -/
theorem Slot.differs_eq_false_iff {p : Params} {r : Slot} (h : r.wf p) (sum : ByteString) :
    r.differs sum = false ↔ r.sumBytes = sum := by
  rw [← Bool.not_eq_true, Slot.differs_iff h, not_not]

/-! ### The four cases of APPLY, each from what LOOKUP and allocation answer -/

theorem applyEntry_new {s : State} {id sum : ByteString} {i : Nat} {r : Slot} (hmiss : lookupKey s.rf id = none)
    (hfree : freeSlot s.rf = some i) (hr : s.rf[i]? = some r) :
    applyEntry id sum s =
      ({ s with rf := s.rf.set i (Slot.create id sum r), out := s.out ++ [.log .new id sum] }, .okNew) := by
  simp only [applyEntry, hmiss, hfree, modify_eq_set hr, State.emit]

theorem applyEntry_full {s : State} {id : ByteString} (hmiss : lookupKey s.rf id = none) (hfull : freeSlot s.rf = none)
    (sum : ByteString) : applyEntry id sum s = (s, .tableFull) := by
  simp only [applyEntry, hmiss, hfull]

theorem applyEntry_changed {s : State} {id sum : ByteString} {i : Nat} {r : Slot} (hhit : lookupKey s.rf id = some i)
    (hr : s.rf[i]? = some r) (hdiff : r.differs sum = true) :
    applyEntry id sum s = ({ s with rf := s.rf.set i (Slot.replace sum r) }, .okChanged) := by
  simp [applyEntry, hhit, hr, hdiff, modify_eq_set hr]

theorem applyEntry_unchanged {s : State} {id sum : ByteString} {i : Nat} {r : Slot} (hhit : lookupKey s.rf id = some i)
    (hr : s.rf[i]? = some r) (hsame : r.differs sum = false) : applyEntry id sum s = (s, .okUnchanged) := by
  simp [applyEntry, hhit, hr, hsame]

/-! ### APPLY as an instruction -/

/-- Settles O54: the operand check fails. -/
theorem applyWithOversizeOperandsStops : Obligations.ApplyWithOversizeOperandsStops := by
  intro s id sum hover
  have hcheck : ¬ (id.length ≤ s.params.keyMax ∧ sum.length ≤ s.params.summaryMax) := by omega
  simp only [exec, execApply, if_neg hcheck]

/-- An APPLY that answers a next state had operands that fit, and answers what `exec_apply_fits` says. -/
theorem exec_apply_next {s t : State} {id sum : ByteString} (h : exec (.apply id sum) s = .next t) :
    id.length ≤ s.params.keyMax ∧ sum.length ≤ s.params.summaryMax ∧
      t = { (applyEntry id sum s).1 with result := some (.apply (applyEntry id sum s).2) } := by
  by_cases hfit : id.length ≤ s.params.keyMax ∧ sum.length ≤ s.params.summaryMax
  · obtain ⟨hid, hsum⟩ := hfit
    rw [exec_apply_fits hid hsum] at h
    cases h
    exact ⟨hid, hsum, rfl⟩
  · have hover : s.params.keyMax < id.length ∨ s.params.summaryMax < sum.length := by omega
    cases h.symm.trans (applyWithOversizeOperandsStops s id sum hover)

/-- Settles O50: LOOKUP misses, allocation finds slot `i`, and the slot written there is `Slot.create`. -/
theorem applyOfAnUnknownIdCreatesAnEntry : Obligations.ApplyOfAnUnknownIdCreatesAnEntry := by
  intro s id sum i r hid hsum hwf hunknown hr hfree hlowest
  refine ⟨Slot.create id sum r, rfl, by simp, rfl, by simp, rfl, rfl, ?_⟩
  rw [exec_apply_fits hid hsum,
    applyEntry_new ((lookupKey_none_iff hwf id).mpr hunknown) (freeSlot_of hr hfree hlowest) hr]

/-- Settles O51: LOOKUP hits slot `i`, whose summary differs, and the slot written there is `Slot.replace`. -/
theorem applyOfADifferentSummaryMarksTheEntry : Obligations.ApplyOfADifferentSummaryMarksTheEntry := by
  intro s id sum i r hid hsum hwf hr hvalid hkey hne
  have hhit : lookupKey s.rf id = some i := (lookupKey_some_iff hwf id i).mpr ⟨r, hr, hvalid, hkey⟩
  have hdiff : r.differs sum = true := (Slot.differs_iff (hwf.slot_wf hr) sum).mpr hne
  refine ⟨Slot.replace sum r, hvalid, rfl, rfl, by simp, rfl, rfl, ?_⟩
  rw [exec_apply_fits hid hsum, applyEntry_changed hhit hr hdiff]

/-- Settles O52: LOOKUP hits slot `i`, whose summary does not differ. -/
theorem applyOfTheStoredSummaryWritesNothing : Obligations.ApplyOfTheStoredSummaryWritesNothing := by
  intro s id sum i r hid hsum hwf hr hvalid hkey hstored
  have hhit : lookupKey s.rf id = some i := (lookupKey_some_iff hwf id i).mpr ⟨r, hr, hvalid, hkey⟩
  have hsame : r.differs sum = false := (Slot.differs_eq_false_iff (hwf.slot_wf hr) sum).mpr hstored
  rw [exec_apply_fits hid hsum, applyEntry_unchanged hhit hr hsame]

/-- Settles O53: LOOKUP misses, and allocation finds no free slot. -/
theorem applyToAFullTableWritesNothing : Obligations.ApplyToAFullTableWritesNothing := by
  intro s id sum hid hsum hwf hfull
  have hmiss : lookupKey s.rf id = none := (lookupKey_none_iff hwf id).mpr fun x hx _ => (hfull x hx).2
  have hnofree : freeSlot s.rf = none :=
    List.findIdx?_eq_none_iff.mpr fun x hx => by simp [(hfull x hx).1]
  rw [exec_apply_fits hid hsum, applyEntry_full hmiss hnofree]

/-! ### APPLY again -/

/-- Unless it finds the table full, APPLY leaves a valid slot with the key `id` and the summary `sum` (R161-R163). -/
theorem applyEntry_stores {s : State} {id sum : ByteString} (h : RfWf s.params s.rf)
    (hcode : (applyEntry id sum s).2 ≠ .tableFull) :
    ∃ (i : Nat) (r : Slot), (applyEntry id sum s).1.rf[i]? = some r ∧
      r.valid = true ∧ r.keyBytes = id ∧ r.sumBytes = sum := by
  obtain ⟨i, hmiss, hfree, -⟩ | ⟨-, -, hfull⟩ | ⟨i, r, hhit, hr, hdiff, -⟩ | ⟨i, r, hhit, hr, hsame, hunchanged⟩ :=
    applyEntry_cases id sum s
  · obtain ⟨r, hr, -⟩ := freeSlot_some hfree
    rw [applyEntry_new hmiss hfree hr]
    exact ⟨i, _, List.getElem?_set_self (List.getElem?_eq_some_iff.mp hr).1, by simp⟩
  · exact absurd (congrArg Prod.snd hfull) hcode
  · obtain ⟨hvalid, hkey⟩ := lookupKey_hit h hhit hr
    rw [applyEntry_changed hhit hr hdiff]
    exact ⟨i, _, List.getElem?_set_self (List.getElem?_eq_some_iff.mp hr).1, by simp [hvalid, hkey]⟩
  · obtain ⟨hvalid, hkey⟩ := lookupKey_hit h hhit hr
    rw [hunchanged]
    exact ⟨i, r, hr, hvalid, hkey, (Slot.differs_eq_false_iff (h.slot_wf hr) sum).mp hsame⟩

/-- Settles O55: after the first APPLY an entry stores the summary, so the second is that of the stored summary. -/
theorem applyingTwiceIsUnchanged : Obligations.ApplyingTwiceIsUnchanged := by
  intro s t id sum hwf hfirst hcode
  obtain ⟨hid, hsum, rfl⟩ := exec_apply_next hfirst
  have hnotfull : (applyEntry id sum s).2 ≠ .tableFull := fun hfull => hcode (by simp [hfull])
  obtain ⟨i, r, hr, hvalid, hkey, hstored⟩ := applyEntry_stores hwf hnotfull
  exact applyOfTheStoredSummaryWritesNothing _ id sum i r (by simpa using hid) (by simpa using hsum)
    (by simpa using hwf.applyEntry hid hsum) hr hvalid hkey hstored

/-! ### DRAIN -/

/-- DRAIN runs the shared operation, with its count as the result (R166). -/
theorem exec_drain (s : State) :
    exec .drain s = .next { (drainEntries s).1 with result := some (.drain (drainEntries s).2) } := rfl

/-- With no slot to report DRAIN clears nothing and reports nothing. -/
theorem exec_drain_of_none_reported {s : State} (h : ∀ r ∈ s.rf, r.reported = false) :
    exec .drain s = .next { s with result := some (.drain 0) } := by
  have hrf : s.rf.map (fun r => if r.reported then r.clearChg else r) = s.rf :=
    (List.map_congr_left fun r hr => by simp [h r hr]).trans (List.map_id _)
  have hhits : s.rf.filter Slot.reported = [] := List.filter_eq_nil_iff.mpr fun r hr => by simp [h r hr]
  simp [exec_drain, drainEntries, hrf, hhits]

/-- DRAIN leaves no slot to report. -/
theorem drained_not_reported (s : State) : ∀ r ∈ (drainEntries s).1.rf, r.reported = false := by
  intro r hr
  obtain ⟨r', -, rfl⟩ := List.mem_map.mp hr
  cases h : r'.reported with
  | true => simp [Slot.reported]
  | false => simp [h]

/-- Settles O56: the first DRAIN is the model's own, and it leaves nothing for the second to report. -/
theorem drainReportsOnceInSlotOrder : Obligations.DrainReportsOnceInSlotOrder := fun s =>
  ⟨_, exec_drain s, rfl, exec_drain_of_none_reported (drained_not_reported s)⟩

/-- DRAIN emits the CHANGED record of every slot to report (R166). -/
theorem exec_drain_reports {s t : State} {r : Slot} (hr : r ∈ s.rf) (hrep : r.reported = true)
    (h : exec .drain s = .next t) : ∃ l l', t.out = s.out ++ l ++ [r.changedLine] ++ l' := by
  have hmem : r.changedLine ∈ (s.rf.filter Slot.reported).map Slot.changedLine :=
    List.mem_map_of_mem (List.mem_filter.mpr ⟨hr, hrep⟩)
  obtain ⟨l, l', hl⟩ := List.append_of_mem hmem
  rw [exec_drain] at h
  cases h
  exact ⟨l, l', by simp [hl]⟩

/-- An APPLY that changes the summary of slot `i` leaves the entry there marked, and emits nothing (R162). -/
theorem exec_apply_marks {s t : State} {id sum : ByteString} {i : Nat} {r : Slot} (hwf : RfWf s.params s.rf)
    (hr : s.rf[i]? = some r) (hvalid : r.valid = true) (hkey : r.keyBytes = id) (hne : r.sumBytes ≠ sum)
    (h : exec (.apply id sum) s = .next t) :
    RfWf t.params t.rf ∧ t.out = s.out ∧
      ∃ r', t.rf[i]? = some r' ∧ r'.valid = true ∧ r'.keyBytes = id ∧ r'.sumBytes = sum ∧ r'.chg = true := by
  obtain ⟨hid, hsum, ht⟩ := exec_apply_next h
  have hwft : RfWf t.params t.rf := by rw [ht]; simpa using hwf.applyEntry hid hsum
  obtain ⟨r', hvalid', hkey', hklen', hsum', -, hchg', h'⟩ :=
    applyOfADifferentSummaryMarksTheEntry s id sum i r hid hsum hwf hr hvalid hkey hne
  have hkeys : r'.keyBytes = r.keyBytes := by simp only [Slot.keyBytes, hkey', hklen']
  cases h.symm.trans h'
  exact ⟨hwft, rfl, r', List.getElem?_set_self (List.getElem?_eq_some_iff.mp hr).1, hvalid', hkeys.trans hkey, hsum',
    hchg'⟩

/-- Settles O57: each APPLY finds a summary that differs from the stored one, so the slot holds `a` again with `chg = 1`
when DRAIN takes it. -/
theorem changeBackIsStillReported : Obligations.ChangeBackIsStillReported := by
  intro s t u v id a b i r hwf hr hvalid hkey hstored hne hb ha hdrain
  obtain ⟨hwft, htout, rb, hrb, hbvalid, hbkey, hbsum, -⟩ := exec_apply_marks hwf hr hvalid hkey (hstored ▸ hne) hb
  obtain ⟨-, huout, ra, hra, havalid, hakey, hasum, hachg⟩ :=
    exec_apply_marks hwft hrb hbvalid hbkey (hbsum ▸ hne.symm) ha
  have hreport := exec_drain_reports (List.mem_of_getElem? hra) (by simp [Slot.reported, havalid, hachg]) hdrain
  rwa [Slot.changedLine, hakey, hasum, huout, htout] at hreport

end Sys2Proof.Machine
end

section
/-! PROOFS. What a step does to an entry of the register file: nothing, the change of an APPLY, or the clearing of a DRAIN
(43_regfile.md R168, R169). -/

namespace Sys2Proof.Machine

open Sys2Proof.Stmt

/-! ### What APPLY and DRAIN do to an entry -/

/-- APPLY leaves an entry as it is, or replaces its summary and answers `OK_CHANGED`: a new entry goes to a free slot
(R161, R162). -/
theorem applyEntry_entry (id sum : ByteString) {s : State} {i : Nat} {r : Slot} (hr : s.rf[i]? = some r)
    (hvalid : r.valid = true) :
    (applyEntry id sum s).1.rf[i]? = some r ∨
    ((applyEntry id sum s).1.rf[i]? = some (Slot.replace sum r) ∧ (applyEntry id sum s).2 = .okChanged) := by
  obtain ⟨k, -, hfree, he⟩ | ⟨-, -, he⟩ | ⟨k, r', -, -, -, he⟩ | ⟨k, r', -, -, -, he⟩ := applyEntry_cases id sum s <;>
    rw [he]
  · obtain ⟨f, hf, hinvalid, -⟩ := freeSlot_some hfree
    have hki : k ≠ i := by
      rintro rfl
      cases hr.symm.trans hf
      simp [hvalid] at hinvalid
    exact .inl (by simp [hki, hr])
  · exact .inl hr
  · by_cases hki : k = i
    · exact .inr ⟨by simp [hki, hr], rfl⟩
    · exact .inl (by simp [hki, hr])
  · exact .inl hr

/-- `finish Ok` writes the register file through APPLY alone (R185). -/
theorem finishOk_rf (d : Datapath) (s : State) : (finishOk d s).rf = (applyEntry d.id d.summary s).1.rf := by
  rw [finishOk_eq]

/-- The last record of `finish Ok` is the status record with APPLY's code (R185, R192). -/
theorem finishOk_out (d : Datapath) (s : State) :
    ∃ l, (finishOk d s).out = s.out ++ l ++ [.status 0 (applyEntry d.id d.summary s).2 0] := by
  rw [finishOk_eq]
  exact ⟨_, congrArg (· ++ _) (List.append_assoc ..)⟩

/-! ### What a step does to an entry -/

/-- From `s` to `t` the entry `r` of slot `i` stays as it is, takes another summary and `chg = 1` with an `OK_CHANGED`
among the new outputs, or loses its `chg` with a `DRAIN_DONE` among them. -/
def EntryStep (i : Nat) (r : Slot) (s t : State) : Prop :=
  ∃ (r' : Slot) (l : List Output), t.rf[i]? = some r' ∧ t.out = s.out ++ l ∧
    (r' = r ∨ (∃ sum, r' = Slot.replace sum r ∧ .status 0 .okChanged 0 ∈ l) ∨
      (r' = r.clearChg ∧ ∃ n, .status 1 .drainDone n ∈ l))

section

variable {s : State} {i : Nat} {r : Slot} (hr : s.rf[i]? = some r)
include hr

/-- What writes no slot keeps the entry, whatever it emits. -/
theorem EntryStep.same {t : State} (hrf : t.rf = s.rf) (l : List Output) (hout : t.out = s.out ++ l) :
    EntryStep i r s t :=
  ⟨r, l, hrf ▸ hr, hout, .inl rfl⟩

/-- What writes no slot and emits nothing keeps the entry. -/
theorem EntryStep.silent {t : State} (hrf : t.rf = s.rf) (hout : t.out = s.out) : EntryStep i r s t :=
  .same hr hrf [] (by rw [hout, List.append_nil])

theorem inputOffer_entry : EntryStep i r s (inputOffer s) := by
  obtain h | ⟨rest, h⟩ | ⟨t, rest, -, -, h⟩ := inputOffer_cases s <;> rw [h] <;>
    exact .silent hr rfl rfl

theorem drain_entry (n : Nat) : EntryStep i r s ((drainEntries s).1.status 1 .drainDone n) := by
  refine ⟨if r.reported then r.clearChg else r, (s.rf.filter Slot.reported).map Slot.changedLine ++ [.status 1 .drainDone n],
    by simp [hr], by simp, ?_⟩
  split
  · exact .inr (.inr ⟨rfl, n, by simp⟩)
  · exact .inl rfl

variable (hvalid : r.valid = true)
include hvalid

/-- `finish Ok` does to an entry what its APPLY does (R185). -/
theorem finishOk_entry (d : Datapath) : EntryStep i r s (finishOk d s) := by
  obtain ⟨l, hout⟩ := finishOk_out d s
  rw [List.append_assoc] at hout
  obtain h | ⟨h, hcode⟩ := applyEntry_entry d.id d.summary hr hvalid <;> rw [← finishOk_rf] at h
  · exact ⟨r, _, h, hout, .inl rfl⟩
  · exact ⟨_, _, h, hout, .inr (.inl ⟨d.summary, rfl, by simp [hcode]⟩)⟩

/-- A micro-step or a whole decode does to an entry what its end does. -/
theorem settle_entry (m : Micro) : EntryStep i r s (settle m s) := by
  cases m with
  | cont d => exact .silent hr rfl rfl
  | finish d => exact finishOk_entry hr hvalid d
  | raised c => exact .same hr rfl _ rfl

theorem discoverTriple_entry (t : Discovery) : EntryStep i r s (discoverTriple t s) := by
  obtain ⟨-, h⟩ | ⟨-, -, h⟩ | ⟨-, -, h⟩ := discoverTriple_cases t s <;> rw [h]
  · exact .same hr rfl _ rfl
  · exact .same hr rfl _ rfl
  · exact settle_entry (s := { s with freeCount := s.freeCount + 1 }) hr hvalid _

/-- A step that is no reset does to an entry one of the three things of `EntryStep`. -/
theorem step_entry {t : State} (hnoreset : noResetNext s) (hs : step s = .next t) : EntryStep i r s t := by
  cases hd : s.decode with
  | some d =>
    cases (step_decode hd).symm.trans hs
    exact settle_entry hr hvalid _
  | none =>
    obtain ⟨ts, rfl⟩ | ⟨ts, rfl⟩ | ⟨ts, rfl⟩ | ⟨ts, rfl⟩ | ⟨ts, hreset, -⟩ | ⟨ts, n, tr, rest, -, -, rfl⟩ |
      ⟨ts, n, -, -, rfl⟩ | ⟨ts, n, -, -, rfl⟩ := step_idle_cases hd hs
    · exact .silent hr rfl rfl
    · exact inputOffer_entry (s := { s with turns := ts }) hr
    · rw [inputTick_eq]; exact .silent hr rfl rfl
    · rw [inputShutdown_eq]; exact .silent hr rfl rfl
    · exact absurd (congrArg List.head? hreset) (hnoreset hd)
    · exact discoverTriple_entry (s := { s with queue := rest, turns := ts, freeCount := n }) hr hvalid tr
    · exact drain_entry (s := { s with tickPending := false, turns := ts, freeCount := n }) hr _
    · exact .same hr rfl _ rfl

end

/-! ### The statements -/

/-- Settles O58: none of the three things a step does to an entry touches its valid bit or its key. -/
theorem entriesAreNeverRemovedOrRenamed : Obligations.EntriesAreNeverRemovedOrRenamed := by
  intro s t i r hnoreset hs hr hvalid
  obtain ⟨r', l, hr', -, rfl | ⟨sum, rfl, -⟩ | ⟨rfl, -⟩⟩ := step_entry hr hvalid hnoreset hs
  · exact ⟨r', hr', hvalid, rfl, rfl⟩
  · exact ⟨_, hr', hvalid, rfl, rfl⟩
  · exact ⟨_, hr', hvalid, rfl, rfl⟩

/-- Settles O59: of the three things a step does to an entry, one keeps `chg`, one sets it and one clears it. -/
theorem changedFlagsHaveTheirTwoWriters : Obligations.ChangedFlagsHaveTheirTwoWriters := by
  intro s t i r r' hnoreset hs hr hr' hvalid
  obtain ⟨e, l, he, hout, hcase⟩ := step_entry hr hvalid hnoreset hs
  cases hr'.symm.trans he
  obtain rfl | ⟨sum, rfl, hmem⟩ | ⟨rfl, hmem⟩ := hcase
  · exact ⟨l, hout, fun hwas hnow => by simp [hwas] at hnow, fun hwas hnow => by simp [hwas] at hnow⟩
  · exact ⟨l, hout, fun _ _ => hmem, fun _ hnow => by simp at hnow⟩
  · exact ⟨l, hout, fun _ hnow => by simp at hnow, fun _ _ => hmem⟩

end Sys2Proof.Machine
end

section
/-! PROOFS. The three events taken and not taken: DISCOVER, TICK and SHUTDOWN (44_events.md R180, R182-R185, R187, R189,
R192). -/

namespace Sys2Proof.Machine

open Sys2Proof.Stmt

/-! ### DISCOVER on a triple -/

theorem discoverTriple_refusedKey {t : Discovery} {s : State} (hid : s.params.keyMax < t.id.length) :
    discoverTriple t s = s.status 0 .refusedKey t.id.length := if_pos hid

theorem discoverTriple_refusedPayload {t : Discovery} {s : State} (hid : t.id.length ≤ s.params.keyMax)
    (hpay : s.params.maxPayload < t.payload.length) :
    discoverTriple t s = s.status 0 .refusedPayload t.payload.length := by
  rw [discoverTriple, if_neg (Nat.not_lt.mpr hid), if_pos hpay]

/-- Between events DISCOVER on a triple leaves a status record alone, or is `finish Ok` with the id of the triple: a
refusal and a `raise` look alike but for the code (R182). -/
theorem discoverTriple_ends (t : Discovery) {s : State} (hd : s.decode = none) :
    (∃ n code info, discoverTriple t s = State.status 0 code info { s with freeCount := n }) ∨
    (∃ d, d.id = t.id ∧ discoverTriple t s = finishOk d { s with freeCount := s.freeCount + 1 }) := by
  obtain ⟨-, h⟩ | ⟨-, -, h⟩ | ⟨-, -, h⟩ := discoverTriple_cases t s <;> rw [h]
  · exact .inl ⟨s.freeCount, _, _, rfl⟩
  · exact .inl ⟨s.freeCount, _, _, rfl⟩
  · obtain ⟨c, hraise⟩ | ⟨d, hfinish, hid, -⟩ := decodeRun_ends s.params (latch (Config.unwritten s.freeCount) t)
    · rw [hraise]
      exact .inl ⟨s.freeCount + 1, c.code, c.info, by apply State.ext <;> simp [settle, hd]⟩
    · rw [hfinish]
      exact .inr ⟨d, hid, rfl⟩

/-- DISCOVER on a triple keeps the rest of `Q`, the flags, the parameters, and the model's own fields but the free-value
counter (R182). -/
theorem discoverTriple_keeps (t : Discovery) {s : State} (hd : s.decode = none) :
    (discoverTriple t s).queue = s.queue ∧ (discoverTriple t s).params = s.params ∧
    (discoverTriple t s).halted = s.halted ∧ (discoverTriple t s).tickPending = s.tickPending ∧
    (discoverTriple t s).shutdownPending = s.shutdownPending ∧ (discoverTriple t s).result = s.result ∧
    (discoverTriple t s).offers = s.offers ∧ (discoverTriple t s).turns = s.turns := by
  obtain ⟨n, code, info, h⟩ | ⟨d, -, h⟩ := discoverTriple_ends t hd <;> rw [h]
  · simp
  · simp [finishOk_eq]

/-! ### The records of an event -/

/-- What `finish Ok` emits before the status record: the gauges, and the NEW record of a new entry (R185, R186). -/
def okRecords (d : Datapath) (s : State) : List Output :=
  gauges d.id d.reading ++ if (applyEntry d.id d.summary s).2 = .okNew then [.log .new d.id d.summary] else []

theorem finishOk_out_eq (d : Datapath) (s : State) :
    (finishOk d s).out = s.out ++ okRecords d s ++ [.status 0 (applyEntry d.id d.summary s).2 0] := by
  rw [finishOk_eq, okRecords, List.append_assoc s.out]

/-- Each of them is a gauge, or the NEW record that comes with `OK_NEW`. -/
theorem mem_okRecords {d : Datapath} {s : State} {o : Output} (ho : o ∈ okRecords d s) :
    (∃ g v, o = .gauge d.id g v) ∨ ((applyEntry d.id d.summary s).2 = .okNew ∧ o = .log .new d.id d.summary) := by
  obtain ho | ho := List.mem_append.mp ho
  · rw [gauges_reading] at ho
    obtain ho | ho := List.mem_append.mp ho
    · exact .inl ⟨_, _, List.mem_singleton.mp ho⟩
    · obtain ⟨-, ho⟩ := List.mem_ite_nil_right.mp ho
      exact .inl ⟨_, _, List.mem_singleton.mp ho⟩
  · obtain ⟨hnew, ho⟩ := List.mem_ite_nil_right.mp ho
    exact .inr ⟨hnew, List.mem_singleton.mp ho⟩

/-- From `s` to `t` the outputs grow by records that are no status, then one status record with event id `e`. -/
def ReportsOnce (e : BitVec 2) (s t : State) : Prop :=
  ∃ l code info, t.out = s.out ++ l ++ [.status e code info] ∧ ∀ o ∈ l, isStatus o = false

/-- A status record alone. -/
theorem ReportsOnce.of_status {e : BitVec 2} {code : StatusCode} {info : Nat} {s t : State}
    (hout : t.out = s.out ++ [.status e code info]) : ReportsOnce e s t :=
  ⟨[], code, info, by rw [hout, List.append_nil], by simp⟩

theorem finishOk_reportsOnce (d : Datapath) (s : State) : ReportsOnce 0 s (finishOk d s) := by
  refine ⟨_, _, _, finishOk_out_eq d s, fun o ho => ?_⟩
  obtain ⟨g, v, rfl⟩ | ⟨-, rfl⟩ := mem_okRecords ho <;> rfl

theorem discoverTriple_reportsOnce (t : Discovery) {s : State} (hd : s.decode = none) :
    ReportsOnce 0 s (discoverTriple t s) := by
  obtain ⟨n, code, info, h⟩ | ⟨d, -, h⟩ := discoverTriple_ends t hd <;> rw [h]
  · exact .of_status rfl
  · exact finishOk_reportsOnce d { s with freeCount := s.freeCount + 1 }

/-- A TICK reports its changed slots, then its count (R187). -/
theorem drain_reportsOnce (n : Nat) (s : State) : ReportsOnce 1 s ((drainEntries s).1.status 1 .drainDone n) := by
  refine ⟨_, _, _, rfl, fun o ho => ?_⟩
  obtain ⟨r, -, rfl⟩ := List.mem_map.mp ho
  rfl

/-! ### The statements -/

/-- Settles O38: the fields kept, the end of the decode and the records are each a lemma about `discoverTriple`. -/
theorem discoverCompletesWithOneStatus : Obligations.DiscoverCompletesWithOneStatus := by
  intro s t rest hh hd hq
  obtain ⟨hqueue, hkeeps⟩ := discoverTriple_keeps t (s := { s with queue := rest }) hd
  obtain ⟨l, code, info, hout, hl⟩ := discoverTriple_reportsOnce t (s := { s with queue := rest }) hd
  exact ⟨_, l, code, info, exec_discover_head hh hd hq, hqueue, discoverTriple_decode hd, hout, hl, hkeeps⟩

/-- Settles O46: each event taken reports once. -/
theorem eachEventEmitsExactlyOneStatus : Obligations.EachEventEmitsExactlyOneStatus := by
  intro s e he
  have hreports : ∃ t, exec e.instr s = .next t ∧ ReportsOnce e.id s t := by
    obtain ⟨rfl, t, rest, -, h⟩ | ⟨rfl, -, h⟩ | ⟨rfl, -, h⟩ := exec_event he
    · obtain ⟨-, hd, -⟩ := (canTake_iff _ s).mp he
      exact ⟨_, h, discoverTriple_reportsOnce t (s := { s with queue := rest }) hd⟩
    · exact ⟨_, h, drain_reportsOnce _ { s with tickPending := false }⟩
    · exact ⟨_, h, .of_status rfl⟩
  obtain ⟨t, h, l, code, info, hout, hl⟩ := hreports
  exact ⟨t, l, code, info, h, hout, hl⟩

/-- Settles O39: DISCOVER works on the head triple, which is refused. -/
theorem oversizeDiscoveriesAreRefused : Obligations.OversizeDiscoveriesAreRefused := by
  intro s t rest hh hd hq
  rw [exec_discover_head hh hd hq]
  exact ⟨fun hid => congrArg _ (discoverTriple_refusedKey hid),
    fun hid hpay => congrArg _ (discoverTriple_refusedPayload hid hpay)⟩

/-- Settles O41: the triple is admitted, and its decode settled by `finish Ok`, which keeps the id of the latch. -/
theorem okDiscoveryEmitsGaugesThenApplies : Obligations.OkDiscoveryEmitsGaugesThenApplies := by
  intro s t rest d hh hd hq hid hpay hrun
  have hdid : d.id = t.id := by
    obtain ⟨c, hraise⟩ | ⟨e, hfinish, hide, -⟩ := decodeRun_ends s.params (latch (Config.unwritten s.freeCount) t)
    · cases hrun.symm.trans hraise
    · cases hrun.symm.trans hfinish
      exact hide
  refine ⟨_, (exec_discover_head hh hd hq).trans (congrArg _ (discoverTriple_admitted hid hpay)), ?_, hdid⟩
  rw [hrun]
  exact afterOk_settle_finish d _

/-- Settles O42: TICK is enabled, and drains. -/
theorem tickReportsAndClearsTheChangedSlots : Obligations.TickReportsAndClearsTheChangedSlots := by
  intro s hh hd hp
  have he : canTake .tick s = true := (canTake_iff _ s).mpr ⟨hh, hd, hp⟩
  simp only [exec, execTick, if_pos he]
  rfl

/-- Settles O43: SHUTDOWN is enabled, and halts. -/
theorem shutdownHaltsAndDiscards : Obligations.ShutdownHaltsAndDiscards := by
  intro s hh hd hp
  have he : canTake .shutdown s = true := (canTake_iff _ s).mpr ⟨hh, hd, hp⟩
  simp only [exec, execShutdown, if_pos he]
  rfl

/-- Settles O44: each event asks first whether it is enabled. -/
theorem eventsNotEnabledWait : Obligations.EventsNotEnabledWait := by
  intro s e he
  cases e with
  | discover => simp [Event.instr, exec, execDiscover, he]
  | tick => simp [Event.instr, exec, execTick, he]
  | shutdown => simp [Event.instr, exec, execShutdown, he]

end Sys2Proof.Machine
end

section
/-! PROOFS. What a step takes next: the micro-step of a decode, an event, or an offer; and the halted block, which takes
none (44_events.md R180, R181, R190). -/

namespace Sys2Proof.Machine

/-! ### Micro-steps and events -/

/-- Settles O9: in these two phases the fetch hands the row to exec. -/
theorem stepRunsTheHeaderAndTheDescriptorRow : Obligations.StepRunsTheHeaderAndTheDescriptorRow := by
  intro s d hd
  refine ⟨fun hphase => ?_, fun hphase => ?_⟩
  · simp only [step, fetch, hd, fetchMicro, hphase]
  · simp only [step, fetch, hd, fetchMicro, hphase]

/-- Settles O10: a turn that gives an event is taken by its enable; with no turn given, by `selectFree_cases`. -/
theorem stepTakesAnyEnabledEvent : Obligations.StepTakesAnyEnabledEvent := by
  intro s hd
  refine ⟨fun e rest hturns => ⟨fun he => ?_, fun he => ?_⟩, fun hturns => ?_⟩
  · simp only [step, fetch, hd, fetchTurn, hturns, if_pos he]
  · simp [step, fetch, hd, fetchTurn, hturns, he]
  · have hfetch : fetch s = selectFree s := by simp only [fetch, hd, fetchTurn, hturns]
    obtain ⟨hwait, hnone⟩ | ⟨e, n, he, hrun⟩ := selectFree_cases s
    · exact ⟨fun _ => by simp only [step, hfetch, hwait], fun ⟨e, he⟩ => by simp [hnone e] at he⟩
    · exact ⟨fun hnone => by simp [hnone e] at he, fun _ => ⟨e, n, he, by simp only [step, hfetch, hrun]⟩⟩

/-! ### Offers -/

/-- An offer turn is the step. -/
theorem step_offer {s : State} {rest : List Turn} (hd : s.decode = none) (hturns : s.turns = .offer :: rest) :
    step s = .next (inputOffer { s with turns := rest }) := by
  simp only [step, fetch, hd, fetchTurn, hturns]

section

variable {s : State} {o : Discovery} {os : List Discovery} (ho : s.offers = o :: os)
include ho

theorem inputOffer_room (hh : s.halted = false) (hroom : s.queue.length < s.params.queueDepth) :
    inputOffer s = { s with offers := os, queue := s.queue ++ [o] } := by
  simp [inputOffer, ho, hh, hroom]

theorem inputOffer_full (hh : s.halted = false) (hfull : s.params.queueDepth ≤ s.queue.length) : inputOffer s = s := by
  simp [inputOffer, ho, hh, Nat.not_lt.mpr hfull]

theorem inputOffer_discarded (hh : s.halted = true) : inputOffer s = { s with offers := os } := by
  simp [inputOffer, ho, hh]

end

/-- Settles O47: the three cases of an offer. -/
theorem offersAreTakenHeldOrDiscarded : Obligations.OffersAreTakenHeldOrDiscarded := by
  intro s o os rest hd hturns ho
  rw [step_offer hd hturns]
  exact ⟨fun hh hroom => congrArg _ (inputOffer_room ho hh hroom), fun hh hfull => congrArg _ (inputOffer_full ho hh hfull),
    fun hh => congrArg _ (inputOffer_discarded ho hh)⟩

/-! ### The halted block -/

/-- While halted a step that is no reset uses up a turn or an offer, and nothing else (R190). -/
theorem step_halted {s : State} (hh : s.halted = true) (hd : s.decode = none)
    (hnoreset : s.turns.head? ≠ some .assertReset) :
    ∃ ts os, step s = .next { s with turns := ts, offers := os } := by
  obtain ⟨ts, h, -⟩ | ⟨ts, -, h⟩ | ⟨ts, -, h⟩ | ⟨ts, -, h⟩ | ⟨ts, hreset, -⟩ | ⟨e, ts, n, he, -⟩ := step_idle hd
  · exact ⟨ts, s.offers, h⟩
  · obtain hheld | ⟨os, htaken⟩ | ⟨t, os, hrunning, -⟩ := inputOffer_cases { s with turns := ts }
    · exact ⟨ts, s.offers, by rw [h, hheld]⟩
    · exact ⟨ts, os, by rw [h, htaken]⟩
    · simp [hh] at hrunning
  · exact ⟨ts, s.offers, by simp [h, inputTick_eq, hh]⟩
  · exact ⟨ts, s.offers, by simp [h, inputShutdown_eq, hh]⟩
  · exact absurd (congrArg List.head? hreset) hnoreset
  · obtain ⟨hrunning, -⟩ := (canTake_iff e s).mp he
    simp [hh] at hrunning

/-- Settles O45: the fields that `step_halted` leaves. -/
theorem haltedBlockDoesNothingButReset : Obligations.HaltedBlockDoesNothingButReset := by
  intro s hh hd hnoreset
  obtain ⟨ts, os, h⟩ := step_halted hh hd hnoreset
  exact ⟨_, h, rfl, rfl, hh, rfl, rfl, rfl, hd⟩

end Sys2Proof.Machine
end

section
/-! PROOFS. Where a NEW line comes from (44_events.md R186): from `finish Ok` alone, whose APPLY made the entry. -/

namespace Sys2Proof.Machine

/-! ### A step emits a NEW record only by `finish Ok` -/

/-- From `s` to `t` the outputs grow by records none of which is a NEW line. -/
def EmitsNoNew (s t : State) : Prop :=
  ∃ l, t.out = s.out ++ l ∧ ∀ id sum, .log .new id sum ∉ l

/-- `t` is `s` after `finish Ok`, but for fields that APPLY and the output ports do not look at. -/
def FinishesOk (s t : State) : Prop :=
  ∃ d s', t = finishOk d s' ∧ s'.rf = s.rf ∧ s'.out = s.out

theorem EmitsNoNew.silent {s t : State} (hout : t.out = s.out) : EmitsNoNew s t :=
  ⟨[], by rw [hout, List.append_nil], by simp⟩

theorem EmitsNoNew.status {s t : State} {e : BitVec 2} {code : StatusCode} {info : Nat}
    (hout : t.out = s.out ++ [.status e code info]) : EmitsNoNew s t :=
  ⟨_, hout, by simp⟩

theorem inputOffer_out (s : State) : (inputOffer s).out = s.out := by
  obtain h | ⟨rest, h⟩ | ⟨t, rest, -, -, h⟩ := inputOffer_cases s <;> rw [h]

/-- The log lines of a DRAIN are CHANGED lines (R166). -/
theorem drain_emitsNoNew (n : Nat) (s : State) : EmitsNoNew s ((drainEntries s).1.status 1 .drainDone n) := by
  refine ⟨(s.rf.filter Slot.reported).map Slot.changedLine ++ [.status 1 .drainDone n], by simp, fun id sum hmem => ?_⟩
  obtain hline | hstatus := List.mem_append.mp hmem
  · obtain ⟨r, -, hr⟩ := List.mem_map.mp hline
    simp [Slot.changedLine] at hr
  · simp at hstatus

theorem settle_new (m : Micro) (s : State) : EmitsNoNew s (settle m s) ∨ FinishesOk s (settle m s) := by
  cases m with
  | cont d => exact .inl (.silent rfl)
  | finish d => exact .inr ⟨d, s, rfl, rfl, rfl⟩
  | raised c => exact .inl (.status rfl)

theorem discoverTriple_new (t : Discovery) {s : State} (hd : s.decode = none) :
    EmitsNoNew s (discoverTriple t s) ∨ FinishesOk s (discoverTriple t s) := by
  obtain ⟨n, code, info, h⟩ | ⟨d, -, h⟩ := discoverTriple_ends t hd
  · rw [h]; exact .inl (.status rfl)
  · exact .inr ⟨d, _, h, rfl, rfl⟩

/-- A step emits no NEW record, or is `finish Ok`: inside a decode, or as a whole DISCOVER (R186). -/
theorem step_new {s t : State} (hs : step s = .next t) : EmitsNoNew s t ∨ FinishesOk s t := by
  cases hd : s.decode with
  | some d =>
    cases (step_decode hd).symm.trans hs
    exact settle_new _ s
  | none =>
    obtain ⟨ts, rfl⟩ | ⟨ts, rfl⟩ | ⟨ts, rfl⟩ | ⟨ts, rfl⟩ | ⟨ts, -, rfl⟩ | ⟨ts, n, tr, rest, -, -, rfl⟩ |
      ⟨ts, n, -, -, rfl⟩ | ⟨ts, n, -, -, rfl⟩ := step_idle_cases hd hs
    · exact .inl (.silent rfl)
    · exact .inl (.silent (inputOffer_out _))
    · rw [inputTick_eq]; exact .inl (.silent rfl)
    · rw [inputShutdown_eq]; exact .inl (.silent rfl)
    · exact .inl (.silent rfl)
    · exact discoverTriple_new tr (s := { s with queue := rest, turns := ts, freeCount := n }) hd
    · exact .inl (drain_emitsNoNew _ { s with tickPending := false, turns := ts, freeCount := n })
    · exact .inl (.status rfl)

/-! ### The entry behind a NEW record -/

/-- APPLY answers `OK_NEW` only for an id without an entry, which then has one with the summary and `chg = 0` (R161). -/
theorem applyEntry_okNew {p : Params} {s : State} {id sum : ByteString} (h : RfWf p s.rf)
    (hcode : (applyEntry id sum s).2 = .okNew) :
    (∀ r ∈ s.rf, r.valid = true → r.keyBytes ≠ id) ∧
    ∃ r ∈ (applyEntry id sum s).1.rf, r.valid = true ∧ r.keyBytes = id ∧ r.sumBytes = sum ∧ r.chg = false := by
  obtain ⟨i, hmiss, hfree, -⟩ | ⟨-, -, he⟩ | ⟨i, r, -, -, -, he⟩ | ⟨i, r, -, -, -, he⟩ := applyEntry_cases id sum s
  · obtain ⟨r, hr, -⟩ := freeSlot_some hfree
    rw [applyEntry_new hmiss hfree hr]
    exact ⟨(lookupKey_none_iff h id).mp hmiss, Slot.create id sum r,
      List.mem_set (List.getElem?_eq_some_iff.mp hr).1 _, by simp⟩
  · simp [he] at hcode
  · simp [he] at hcode
  · simp [he] at hcode

/-- A NEW record that `finish Ok` emits is the one of its APPLY (R185, R186). -/
theorem finishOk_new {d : Datapath} {s : State} {l : List Output} {id sum : ByteString}
    (hout : (finishOk d s).out = s.out ++ l) (hmem : .log .new id sum ∈ l) :
    id = d.id ∧ sum = d.summary ∧ (applyEntry d.id d.summary s).2 = .okNew := by
  rw [finishOk_out_eq, List.append_assoc] at hout
  rw [← List.append_cancel_left hout] at hmem
  obtain hmem | hstatus := List.mem_append.mp hmem
  · obtain ⟨g, v, hgauge⟩ | ⟨hcode, hnew⟩ := mem_okRecords hmem
    · cases hgauge
    · cases hnew
      exact ⟨rfl, rfl, hcode⟩
  · simp at hstatus

/-- Settles O60: a step that adds a NEW record is `finish Ok`, the record is that of its APPLY, and APPLY answered
`OK_NEW`. -/
theorem newLinesAreOnlyForUnknownDevices : Obligations.NewLinesAreOnlyForUnknownDevices := by
  intro s t l id sum hinv hs hout hmem
  obtain ⟨-, hwf, -⟩ := hinv
  obtain ⟨l', hout', hnone⟩ | ⟨d, s', rfl, hrf, hsame⟩ := step_new hs
  · rw [List.append_cancel_left (hout.symm.trans hout')] at hmem
    exact absurd hmem (hnone id sum)
  · obtain ⟨rfl, rfl, hcode⟩ := finishOk_new (hsame ▸ hout) hmem
    rw [← hrf] at hwf ⊢
    rw [finishOk_rf]
    exact applyEntry_okNew hwf hcode

end Sys2Proof.Machine
end

section
/-! PROOFS. Failures: what a failed discovery leaves, and that no outcome stops the controller (60_exceptions.md R200,
R209, R210). -/

namespace Sys2Proof.Machine

open Sys2Proof.Stmt

/-- Between events there is no decode to discard: a failure leaves its status record and nothing else (R209). -/
theorem failed_of_idle {s : State} (hd : s.decode = none) (code : StatusCode) (info : Nat) :
    failed s code info = s.status 0 code info := by
  apply State.ext <;> simp [failed, hd]

/-- An admitted triple whose decode raises leaves the status record of the cause (R182, R209). -/
theorem discoverTriple_raised {t : Discovery} {s : State} {c : Cause} (hd : s.decode = none)
    (hid : t.id.length ≤ s.params.keyMax) (hpay : t.payload.length ≤ s.params.maxPayload)
    (hrun : decodeRun s.params (latch (Config.unwritten s.freeCount) t) = .raised c) :
    discoverTriple t s = State.status 0 c.code c.info { s with freeCount := s.freeCount + 1 } := by
  rw [discoverTriple_admitted hid hpay, hrun, settle_raised]
  exact failed_of_idle (s := { s with freeCount := s.freeCount + 1 }) hd c.code c.info

/-- Settles O40: DISCOVER works on the head triple, whose decode raises. -/
theorem failedDiscoveryLeavesOnlyAStatus : Obligations.FailedDiscoveryLeavesOnlyAStatus := by
  intro s t rest c hh hd hq hid hpay hrun
  rw [exec_discover_head hh hd hq]
  exact congrArg _ (discoverTriple_raised (s := { s with queue := rest }) hd hid hpay hrun)

/-- An event answers a next state: taken by `exec_event`, and left waiting when it is not enabled (R180, R210). -/
theorem exec_event_answers (e : Event) (s : State) : ∃ t, exec e.instr s = .next t := by
  by_cases he : canTake e s = true
  · obtain ⟨rfl, t, rest, -, h⟩ | ⟨rfl, -, h⟩ | ⟨rfl, -, h⟩ := exec_event he <;> exact ⟨_, h⟩
  · exact ⟨s, eventsNotEnabledWait s e (by simpa using he)⟩

/-- Settles O5: inside a decode a step settles its micro-step; between events it waits, lets an input land, or is an
event, which answers. -/
theorem stepAlwaysAnswersANextState : Obligations.StepAlwaysAnswersANextState := by
  intro s
  cases hd : s.decode with
  | some d => exact ⟨_, step_decode hd⟩
  | none =>
    obtain ⟨ts, h, -⟩ | ⟨ts, -, h⟩ | ⟨ts, -, h⟩ | ⟨ts, -, h⟩ | ⟨ts, -, h⟩ | ⟨e, ts, n, -, h⟩ := step_idle hd
    · exact ⟨_, h⟩
    · exact ⟨_, h⟩
    · exact ⟨_, h⟩
    · exact ⟨_, h⟩
    · exact ⟨_, h⟩
    · rw [h]
      exact exec_event_answers e _

end Sys2Proof.Machine
end

section
/-! PROOFS. The reset input between events (70_reset_and_hazards.md R230): the block's state goes to its reset values, and
what lies outside the block stays. -/

namespace Sys2Proof.Machine

/-- A reset turn is the step, in the halted block too. -/
theorem step_assertReset {s : State} {rest : List Turn} (hd : s.decode = none) (hturns : s.turns = .assertReset :: rest) :
    step s = .next (inputReset { s with turns := rest }) := by
  simp only [step, fetch, hd, fetchTurn, hturns]

/-- The reset input gives every entry of the build one slot. -/
theorem inputReset_rf_length (s : State) : (inputReset s).rf.length = s.params.entries := List.length_replicate

/-- The reset input leaves no entry, hence none marked changed. -/
theorem inputReset_slots_clear (s : State) : ∀ r ∈ (inputReset s).rf, r.valid = false ∧ r.chg = false := by
  intro r hr
  rw [List.eq_of_mem_replicate (a := Slot.reset s.params) hr]
  exact ⟨rfl, rfl⟩

/-- Settles O2: the step is the reset input, whose slots are reset slots; it takes the other fields of the block from
`State.resetOf` and the rest from the state before. -/
theorem resetInputClearsTheBlockSilently : Obligations.ResetInputClearsTheBlockSilently := by
  intro s rest hd hturns
  exact ⟨_, step_assertReset hd hturns, inputReset_rf_length _, inputReset_slots_clear _,
    rfl, rfl, rfl, rfl, rfl, rfl, rfl, rfl, rfl⟩

end Sys2Proof.Machine
end
